-- ==== Sys2Proof/Word.lean ====
section
/-! DEFINITION. The one width of the machine: a stored byte and an address are 8 bits (00_scope.md R7, R12). -/

namespace Sys2Proof

/-- A stored byte, 0..255 (R7 CELL_WIDTH). -/
abbrev Byte := BitVec 8

/-- An address of the one address space, 0..255 (R7 ADDR_WIDTH, 20_memory.md R50). -/
abbrev Addr := BitVec 8

/-- A character string: a source line, a symbol's name or an instruction's name. Lists of characters
compute in Lean's kernel and have their own equality. -/
abbrev Text := List Char

end Sys2Proof
end

