-- ==== Sys2Proof/Config.lean ====
section
/-! DEFINITION. The machine's fixed parameters (00_scope.md R7) and the values the spec leaves free. -/

namespace Sys2Proof

/-- MEM_SIZE (R7): the number of cells. -/
def Config.memSize : Nat := 256

/-- The memory bound of the halt condition (10_state.md R26): the last address. -/
def Config.memBound : Nat := 255

/-- INSN_BYTES (R7): the bytes of one instruction. -/
def Config.insnBytes : Nat := 3

/-- ADDR_IN (R7): the input port, when read as operand `b`. -/
def Config.addrIn : Addr := 253#8

/-- ADDR_OUT (R7): the output port, when written as operand `a`. -/
def Config.addrOut : Addr := 254#8

/-- ADDR_HALT (R7): the halt sentinel, as a value of `ip`. -/
def Config.addrHalt : Addr := 255#8

/-- RESET_IP (R7, 70_reset_and_hazards.md R203): the entry point. -/
def Config.resetIp : Addr := 0#8

/-- What a cell that no list entry names reads as: 0, the zero padding of construction (10_state.md R39,
70_reset_and_hazards.md R201). -/
def Config.unlistedByte : Byte := 0#8

/-- The smallest and the largest address an assembler literal may name (30_encoding.md R99). -/
def Config.addressRange : Int × Int := (0, 255)

/-- VALUE_RANGE (R7): the smallest and the largest value of a `.data` literal (30_encoding.md R99). -/
def Config.valueRange : Int × Int := (-128, 127)

/-- FREE VALUE. The host's answer to input request number `n`, once the replies queued in the state are used
up: any 8-bit value (92_eei_decisions.md D3, 93_implementation_defined.md U5; log entry 1). -/
opaque Config.inputReply : Nat → Byte

/-- FREE VALUE. Whether the assembler's `symbols` output lists the three predefined symbols: the spec allows
either (93_implementation_defined.md U15; log entry 12). -/
opaque Config.symbolsListPredefined : Bool

end Sys2Proof
end

