-- ==== Sys2Proof/Syntax.lean ====
section
/-! DEFINITION. The instruction set (one instruction, 30_encoding.md R85), the assembler's source and output
types (30_encoding.md R90-R105), and the program image the core is constructed from. -/

namespace Sys2Proof

/-- The instructions: one row of spec/opcode_table.json. -/
inductive Instr where
  /-- `subleq a, b, c` (40_subleq.md R130). `a`: minuend and destination (254 = output port); `b`: subtrahend
  (253 = input port); `c`: absolute branch target. Each an unsigned 8-bit absolute address (R83). -/
  | subleq (a b c : Addr)
  deriving DecidableEq, Repr

/-- A source line as the source map records it (R103): its number and its text. -/
structure LineInfo where
  lineNumber : Nat
  sourceText : Text
  deriving DecidableEq, Repr

/-- The sparse map from an address to the source line whose first byte lies there (10_state.md R35,
30_encoding.md R103). -/
abbrev SourceMap := List (Addr × LineInfo)

/-- The symbol table: each name, `@` included, with the address it is bound to (R95). -/
abbrev Symbols := List (Text × Addr)

/-- The assembler's output, and what the core is constructed from (R90). `bytes` are integers, so that an
image with an entry outside 0..255 can be written down and is refused (60_exceptions.md R162). -/
structure Program where
  bytes : List Int
  sourceMap : SourceMap
  symbols : Symbols
  deriving DecidableEq, Repr

/-- The empty program: no bytes, no lines, no symbols (40_subleq.md R146 names its construction state). -/
def Program.empty : Program := ⟨[], [], []⟩

/-- An operand as the line grammar reads it (R91): an integer, or a symbol with an offset (0 if none). -/
inductive SourceOperand where
  | literal (value : Int)
  | symbol (name : Text) (offset : Int)
  deriving DecidableEq, Repr

/-- A line that matches the grammar (R91): its label if any, and its instruction's name with the operands. -/
structure ParsedLine where
  label : Option Text
  body : Option (Text × List SourceOperand)
  deriving DecidableEq, Repr

/-- A value pass one emits (R101): a byte, or a reference to a symbol not bound yet. -/
inductive Emitted where
  | resolved (value : Byte)
  | pending (name : Text) (offset : Int)
  deriving DecidableEq, Repr

/-- The assembler's errors (R105), each with the line number and the text of the offending line, or with the
name that is undefined. All of them are raised by the assembler before a core exists (60_exceptions.md R161). -/
inductive AsmError where
  /-- The line does not match the grammar (R91, R93). -/
  | syntaxError (line : Nat) (text : Text)
  /-- `subleq` without 2 or 3 operands, or `.data` without exactly 1: the requirement, as the counts that would do, and
  the count that stood there (R96 "reporting count and requirement", R98). -/
  | argumentCount (line : Nat) (text : Text) (required : List Nat) (count : Nat)
  /-- A literal outside its class (R99), or a byte or a label at output address 256 or beyond (R104). -/
  | rangeError (line : Nat) (text : Text)
  /-- A name other than `subleq` and `.data` (R94). -/
  | unknownInstruction (line : Nat) (text : Text) (name : Text)
  /-- A label bound a second time, or one of the three predefined names (R95). -/
  | duplicateLabel (line : Nat) (text : Text) (name : Text)
  /-- A symbol still unbound after every line (R102). -/
  | undefinedReference (name : Text)
  deriving DecidableEq, Repr

end Sys2Proof
end

