-- ==== Sys2Proof/WellFormed.lean ====
section
/-! DEFINITION. What a well-formed instruction and an admitted program image are. -/

namespace Sys2Proof

/-- Every instruction is well-formed: no encoding is illegal or reserved (30_encoding.md R86), and the field
types hold exactly the operands a byte can name. -/
def Instr.wf : Instr → Bool
  | .subleq _ _ _ => true

/-- One entry of an image lies in 0..255 (70_reset_and_hazards.md R201). -/
def isByteValue (v : Int) : Bool := decide (0 ≤ v) && decide (v ≤ 255)

/-- The images `Construct` admits: at most 256 entries, each in 0..255 (60_exceptions.md R162, R201; D8). -/
def imageAdmitted (bytes : List Int) : Bool :=
  decide (bytes.length ≤ Config.memSize) && bytes.all isByteValue

end Sys2Proof
end

