-- ==== Sys2Proof/Decode.lean ====
section
/-! DEFINITION. Decoding bytes into an instruction, and the encoder (30_encoding.md R80-R87). -/

namespace Sys2Proof

/-- Why a list of bytes is no instruction. The only reason is that fewer than three bytes are there: every
pattern of three bytes is an instruction (30_encoding.md R85, R86). -/
inductive DecodeRefusal where
  | truncated (available : Nat)
  deriving DecidableEq, Repr

/-- The three bytes of an instruction, in address order, are its three operands (R80, R81). -/
def decodeBytes (atIp atIp1 atIp2 : Byte) : Instr :=
  .subleq atIp atIp1 atIp2

/-- The instruction at the head of a list of bytes in address order, with the bytes after it (R80, R87). -/
def decode : List Byte → Except DecodeRefusal (Instr × List Byte)
  | x :: y :: z :: rest => .ok (decodeBytes x y z, rest)
  | short => .error (.truncated short.length)

/-- The bytes of an instruction in address order: `a`, `b`, `c` (R80, R97). -/
def encode : Instr → List Byte
  | .subleq a b c => [a, b, c]

/-- The spec's 24-bit notation of an instruction: `a` in bits 23..16, `b` in 15..8, `c` in 7..0 (R82). -/
def insn24 : Instr → BitVec 24
  | .subleq a b c => a ++ b ++ c

/-- The instruction a 24-bit pattern stands for (R85). -/
def decodeInsn24 (w : BitVec 24) : Instr :=
  .subleq (w.extractLsb' 16 8) (w.extractLsb' 8 8) (w.extractLsb' 0 8)

/-- The bytes, lowest address first, of a table word: the low `nbits` bits of `w` read as the 24-bit
notation of R82 (log entry 4). -/
def tableBytes (nbits w : Nat) : List Byte :=
  let v := w % 2 ^ nbits
  [BitVec.ofNat 8 (v / 65536), BitVec.ofNat 8 (v / 256), BitVec.ofNat 8 v]

/-- The instruction the decoder reads from a word of spec/opcode_table.json, numbered as the table numbers
its bits (R82, R85; log entry 4). No instruction is longer than 24 bits. -/
def decodeTableWord (nbits w : Nat) : Option Instr :=
  if nbits ≤ 24 then
    match decode (tableBytes nbits w) with
    | .ok (i, []) => some i
    | _ => none
  else none

end Sys2Proof
end

