-- ==== Sys2Proof/Machine/Numeric.lean ====
section
/-! DEFINITION. The conversions between a stored byte and its signed meaning (00_scope.md R10), and the one
arithmetic operation (40_subleq.md R133). -/

namespace Sys2Proof.Machine

/-- `u8(v)`: an integer reduced modulo 256 to a stored byte (R10). -/
def u8 (v : Int) : Byte := BitVec.ofInt 8 v

/-- `s8(u) = (u & 0x7F) - (if (u & 0x80) != 0 then 128 else 0)`: the signed value of a stored byte (R10). -/
def s8 (u : Byte) : Int :=
  ((u &&& 0x7F#8).toNat : Int) - (if u &&& 0x80#8 ≠ 0#8 then 128 else 0)

/-- `(av - bv) mod 256`, which wraps silently (R133). -/
def subtract (av bv : Byte) : Byte := u8 ((av.toNat : Int) - (bv.toNat : Int))

end Sys2Proof.Machine
end

