-- ==== Sys2Proof/Machine/Memory.lean ====
section
/-! DEFINITION. The 256 cells as a canonical list, and the set of accessed addresses as a canonical list
(10_state.md R21, R31). -/

namespace Sys2Proof.Machine

/-- General memory: (address, byte) pairs, addresses strictly rising, no byte equal to what an unlisted
address reads as. Equal memories are equal lists. -/
abbrev Memory := List Host.Cell

/-- The byte of one cell (R21): every cell always has a value. -/
def Memory.read : Memory → Nat → Byte
  | [], _ => Config.unlistedByte
  | (k, v) :: m, a => if k = a then v else Memory.read m a

/-- Sets one cell and keeps the canonical form: writing the unlisted value removes the entry. -/
def Memory.write : Memory → Nat → Byte → Memory
  | [], a, v => if v = Config.unlistedByte then [] else [(a, v)]
  | (k, w) :: m, a, v =>
    if k < a then (k, w) :: Memory.write m a v
    else if k = a then (if v = Config.unlistedByte then m else (a, v) :: m)
    else if v = Config.unlistedByte then (k, w) :: m else (a, v) :: (k, w) :: m

/-- The canonical form from address `lo` on: strictly rising addresses below 256, no unlisted value. -/
def Memory.wfFrom : Nat → Memory → Bool
  | _, [] => true
  | lo, (k, v) :: m =>
    decide (lo ≤ k) && decide (k < Config.memSize) && decide (v ≠ Config.unlistedByte) && Memory.wfFrom (k + 1) m

/-- The canonical form holds. -/
def Memory.wf (m : Memory) : Bool := Memory.wfFrom 0 m

/-- The memory that holds `bytes` from address `at_` on and 0 elsewhere (70_reset_and_hazards.md R201). -/
def Memory.ofBytes : Nat → List Byte → Memory
  | _, [] => []
  | at_, b :: bs =>
    if b = Config.unlistedByte then Memory.ofBytes (at_ + 1) bs else (at_, b) :: Memory.ofBytes (at_ + 1) bs

/-- The accessed set: addresses, strictly rising (R31). -/
abbrev AddrSet := List Addr

/-- Adds an address; adding one already present changes nothing (R31). -/
def AddrSet.insert : AddrSet → Addr → AddrSet
  | [], a => [a]
  | x :: xs, a =>
    if x < a then x :: AddrSet.insert xs a else if x = a then x :: xs else a :: x :: xs

/-- The canonical form from address `lo` on: strictly rising. -/
def AddrSet.wfFrom : Nat → AddrSet → Bool
  | _, [] => true
  | lo, a :: s => decide (lo ≤ a.toNat) && AddrSet.wfFrom (a.toNat + 1) s

/-- The canonical form holds. -/
def AddrSet.wf (s : AddrSet) : Bool := AddrSet.wfFrom 0 s

end Sys2Proof.Machine
end

