-- ==== Sys2Proof/Machine/Trace.lean ====
section
/-! DEFINITION. The transactions the core sends its host (60_exceptions.md R180-R185), the source-line lookup
(R175), the halt condition (10_state.md R26) and the events of construction (70_reset_and_hazards.md R201). -/

namespace Sys2Proof.Machine

/-- One transaction from the core to its host (R180). -/
inductive Event where
  /-- `InRequest`, answered with `InReply(v)`, `v` in -128..127 (R182). -/
  | input (v : Int)
  /-- `Out(v)`, `v` in -128..127 (R183). -/
  | out (v : Int)
  /-- `MemWrite(addr, value)` (R181). -/
  | memWrite (addr : Addr) (value : Byte)
  /-- `StateUpdated(running, ip, lineNumber, sourceText, cyclesExecuted, bytesAccessed)` (R184). -/
  | stateUpdated (running : Bool) (ip : Addr) (lineNumber : Option Nat) (sourceText : Option Text)
      (cyclesExecuted bytesAccessed : Nat)
  /-- `Halt(cyclesExecuted, bytesAccessed)` (R185). -/
  | halt (cyclesExecuted bytesAccessed : Nat)
  deriving DecidableEq, Repr

/-- The callback set (10_state.md R36): which of the five callbacks the host attached at construction. -/
structure Callbacks where
  input : Bool
  output : Bool
  writeMemory : Bool
  stateUpdated : Bool
  halt : Bool
  deriving DecidableEq, Repr

/-- Every callback attached. -/
def Callbacks.all : Callbacks := ⟨true, true, true, true, true⟩

/-- Whether a callback set delivers an event to the host: leaving a callback out delivers that event to no one
(R36). -/
def Callbacks.receives (cb : Callbacks) : Event → Bool
  | .input _ => cb.input
  | .out _ => cb.output
  | .memWrite _ _ => cb.writeMemory
  | .stateUpdated _ _ _ _ _ _ => cb.stateUpdated
  | .halt _ _ => cb.halt

/-- `running(ip) = (ip + 3 <= 255)` (R26; 90_conflicts.md C1 settles `ip = 253` as Halted). -/
def runningAt (ip : Addr) : Bool := decide (ip.toNat + Config.insnBytes ≤ Config.memBound)

/-- The entry at the greatest mapped address at or below `ip` (R175): the exact match if there is one, else the
nearest preceding mapped address, else none (D10). -/
def nearestLine : SourceMap → Addr → Option (Addr × LineInfo)
  | [], _ => none
  | (k, l) :: m, ip =>
    match nearestLine m ip with
    | none => if k ≤ ip then some (k, l) else none
    | some (k', l') => if k ≤ ip ∧ k' ≤ k then some (k, l) else some (k', l')

/-- `lineOf(ip)` (R175). -/
def lineOf (m : SourceMap) (ip : Addr) : Option Nat := (nearestLine m ip).map (fun e => e.2.lineNumber)

/-- `textOf(ip)` (R175). -/
def textOf (m : SourceMap) (ip : Addr) : Option Text := (nearestLine m ip).map (fun e => e.2.sourceText)

/-- The state-update notification for a given `ip` and counters (R184). -/
def stateUpdate (m : SourceMap) (ip : Addr) (cycles bytes : Nat) : Event :=
  .stateUpdated (runningAt ip) ip (lineOf m ip) (textOf m ip) cycles bytes

/-- The events of construction, in order (R201; D6, D7): one `MemWrite` per cell, ascending, then one
`StateUpdated` with both counters 0. -/
def constructionEvents (mem : Memory) (m : SourceMap) : List Event :=
  (List.range Config.memSize).map (fun A => Event.memWrite (BitVec.ofNat 8 A) (mem.read A))
    ++ [stateUpdate m Config.resetIp 0 0]

end Sys2Proof.Machine
end

