-- ==== Sys2Proof/Machine/State.lean ====
section
/-! DEFINITION. The state of one core, the reasons a step or a construction can stop, and the reset state. -/

namespace Sys2Proof.Machine

/-- The state (10_state.md R20, R41), with the two items fixed at construction (R35, R36) and what has crossed
or is about to cross the host boundary (60_exceptions.md R180; log entries 1 and 5). `running` and
`bytesAccessed` are derived (R27, R41): `State.running`, `State.bytesAccessed` in Ops.lean. -/
structure State where
  /-- General memory (R21). -/
  mem : Memory
  /-- The instruction pointer (R23). -/
  ip : Addr
  /-- The number of executed steps, unbounded (R30, D4). -/
  cyclesExecuted : Nat
  /-- Every address touched by any step (R31). -/
  accessed : AddrSet
  /-- Configuration: the source map (R35). -/
  sourceMap : SourceMap
  /-- Configuration: the callback set (R36). -/
  callbacks : Callbacks
  /-- The host's answers to the coming input requests, oldest first; the model's own field (log entry 1). -/
  inputQueue : List Byte
  /-- How many input requests have been answered; the model's own field (log entry 1). -/
  inputCount : Nat
  /-- Every transaction issued since construction began, oldest first; the model's own field (log entry 5). -/
  events : List Event
  deriving DecidableEq, Repr

/-- The reasons a step faults: none. The core raises no exception and has no error channel
(60_exceptions.md R160, R172). SAFE: a step cannot answer a fault. -/
inductive Fault where
  deriving DecidableEq, Repr

/-- The reasons the model refuses. -/
inductive Refusal where
  /-- Raised by an arm of `exec` for an instruction without a meaning; no arm raises it. SAFE. -/
  | notModelled (mnemonic : String)
  /-- Raised by `construct` for an image of more than 256 entries or with an entry outside 0..255, which the
  spec refuses (R162, R201; D8). SAFE: nothing can be proved of a core made from it. -/
  | imageNotAdmitted
  deriving DecidableEq, Repr

/-- The machine right after reset, which is construction (10_state.md R39, 70_reset_and_hazards.md R200, R201),
from the empty program with every callback attached and no input queued (log entry 2). -/
def State.reset : State where
  mem := []
  ip := Config.resetIp
  cyclesExecuted := 0
  accessed := []
  sourceMap := []
  callbacks := Callbacks.all
  inputQueue := []
  inputCount := 0
  events := constructionEvents [] []

end Sys2Proof.Machine
end

