-- ==== Sys2Proof/Machine/Ops.lean ====
section
/-! DEFINITION. The named operations over the state. The spec gives the machine no exception, trap or return
from one (60_exceptions.md R160, R165, R166), so there is no operation for taking one. -/

namespace Sys2Proof.Machine

/-! ### The basic updates: each changes one field (`takeInput` changes the two of the input queue) -/

/-- `ip <- t` (00_scope.md R11). -/
def State.setIp (s : State) (t : Addr) : State := { s with ip := t }

/-- `mem[A] <- v`, with no event. -/
def State.store (s : State) (A : Addr) (v : Byte) : State := { s with mem := s.mem.write A.toNat v }

/-- `Touch(A)` (R11, 10_state.md R31). -/
def State.touch (s : State) (A : Addr) : State := { s with accessed := s.accessed.insert A }

/-- Issues one transaction to the host (60_exceptions.md R180). -/
def State.emit (s : State) (e : Event) : State := { s with events := s.events ++ [e] }

/-- `cyclesExecuted <- cyclesExecuted + 1` (R30). -/
def State.countCycle (s : State) : State := { s with cyclesExecuted := s.cyclesExecuted + 1 }

/-- One queued input answer is used up, and the count of answers grows (20_memory.md R55). -/
def State.takeInput (s : State) : State :=
  { s with inputQueue := s.inputQueue.tail, inputCount := s.inputCount + 1 }

/-! ### The derived state -/

/-- `running` (R26, R27): a function of `ip`. -/
def State.running (s : State) : Bool := runningAt s.ip

/-- `bytesAccessed` (R31): the number of elements of `accessed`. -/
def State.bytesAccessed (s : State) : Nat := s.accessed.length

/-- The events the callback set delivers to the host (10_state.md R36). -/
def State.delivered (s : State) : List Event := s.events.filter s.callbacks.receives

/-- The canonical form of the two collections the state holds. -/
def State.wf (s : State) : Bool := s.mem.wf && s.accessed.wf

/-! ### Accesses -/

/-- `MemRead(A, 1)`: the stored byte, with no port behaviour (R11, 20_memory.md R53, R54). -/
def State.memRead (s : State) (A : Addr) : Byte := s.mem.read A.toNat

/-- `MemWrite(A, 1, v)`: the store and its notification (R11, R56). -/
def State.memWrite (s : State) (A : Addr) (v : Byte) : State := (s.store A v).emit (.memWrite A v)

/-- The answer the host gives to the next input request: the oldest queued reply, or a free value (D3, U5). -/
def State.nextReply (s : State) : Byte := s.inputQueue.headD (Config.inputReply s.inputCount)

/-- The value of `InRead()`: the host's answer, or 0 when no input callback is attached (R55). -/
def State.inValue (s : State) : Byte := if s.callbacks.input then s.nextReply else 0#8

/-- The state after `InRead()`: with an input callback, one request issued and answered; else no change
(R55, 60_exceptions.md R182). -/
def State.afterInRead (s : State) : State :=
  if s.callbacks.input then s.takeInput.emit (.input (s8 s.nextReply)) else s

/-- `OutWrite(v)`: the value goes to the output port and nothing is stored (R56, R183). -/
def State.outWrite (s : State) (v : Int) : State := s.emit (.out v)

/-! ### Fetch -/

/-- The three bytes at `ip`, in address order: plain reads (R53). -/
def State.fetchBytes (s : State) : List Byte :=
  [s.memRead s.ip, s.memRead (s.ip + 1#8), s.memRead (s.ip + 2#8)]

/-- The instruction at `ip`: its three bytes decoded (R53, 30_encoding.md R85). -/
def State.fetch (s : State) : Instr :=
  decodeBytes (s.memRead s.ip) (s.memRead (s.ip + 1#8)) (s.memRead (s.ip + 2#8))

/-- `Touch(ip0); Touch(ip0+1); Touch(ip0+2)`, then `ip <- ip0 + 3` (40_subleq.md R130). -/
def State.afterFetch (s : State) : State :=
  (((s.touch s.ip).touch (s.ip + 1#8)).touch (s.ip + 2#8)).setIp (s.ip + 3#8)

/-! ### The end of a step -/

/-- The counter, then the state-update notification, then the halt notification if the core is now Halted
(40_subleq.md R136, 60_exceptions.md R184, R185, R188). -/
def State.finish (s : State) : State :=
  let counted := s.countCycle
  let updated := counted.emit (stateUpdate counted.sourceMap counted.ip counted.cyclesExecuted counted.bytesAccessed)
  if updated.running then updated else updated.emit (.halt updated.cyclesExecuted updated.bytesAccessed)

/-- A `step()` call in Halted: a no-op (10_state.md R28). -/
def State.haltedStep (s : State) : State := s

/-! ### Placing an instruction from outside -/

/-- Where a placed instruction goes: at `ip` while Running; else at the entry point (log entry 3). -/
def State.placeIp (s : State) : Addr := if s.running then s.ip else Config.resetIp

/-- Stores bytes at rising addresses from `A` on, with no event. -/
def State.placeBytes (s : State) (A : Addr) : List Byte → State
  | [] => s
  | b :: bs => (s.store A b).placeBytes (A + 1#8) bs

end Sys2Proof.Machine
end

