-- ==== Sys2Proof/Machine/Flags.lean ====
section
/-! DEFINITION. The machine has no flags (10_state.md R29). The one condition is the branch condition, computed
from the step's own result and kept nowhere (40_subleq.md R134). -/

namespace Sys2Proof.Machine

/-- `resultSigned <= 0` (R134). -/
def branchTaken (result : Byte) : Bool := decide (s8 result ≤ 0)

/-- A taken branch sets `ip <- c`; one not taken leaves `ip` (R135). -/
def State.branch (s : State) (c : Addr) (result : Byte) : State :=
  if branchTaken result then s.setIp c else s

end Sys2Proof.Machine
end

