-- ==== Sys2Proof/Machine/Operands.lean ====
section
/-! DEFINITION. The operand forms of `subleq` (30_encoding.md R83): a direct address, with the input port when
`b = 253` is read and the output port when `a = 254` is written (20_memory.md R54-R56). -/

namespace Sys2Proof.Machine

/-- The A read: the stored byte, for every `a` (R54). -/
def State.readA (s : State) (a : Addr) : Byte := s.memRead a

/-- The value of the B read: the input port for 253, else the stored byte (R55). -/
def State.readB (s : State) (b : Addr) : Byte := if b = Config.addrIn then s.inValue else s.memRead b

/-- The state after the B read and its `Touch(b)` (R55). -/
def State.afterReadB (s : State) (b : Addr) : State :=
  (if b = Config.addrIn then s.afterInRead else s).touch b

/-- The write-back and its `Touch(a)`: the output port for 254, else a store (R56). -/
def State.writeBack (s : State) (a : Addr) (result : Byte) : State :=
  (if a = Config.addrOut then s.outWrite (s8 result) else s.memWrite a result).touch a

end Sys2Proof.Machine
end

