-- ==== Sys2Proof/Machine/Subleq.lean ====
section
/-! DEFINITION. The one instruction family: `subleq` (40_subleq.md). -/

namespace Sys2Proof.Machine

/-- `subleq a, b, c`, from the touches of the fetch to the notifications, in the order of R130. `step` calls it
only while Running, with `a`, `b`, `c` the bytes fetched at `ip`. -/
def execSubleq (a b c : Addr) (s : State) : Host.Outcome State Fault Refusal :=
  let fetched := s.afterFetch
  let av := fetched.readA a
  let bv := fetched.readB b
  let result := subtract av bv
  let operandsRead := fetched.afterReadB b
  let written := operandsRead.writeBack a result
  let branched := written.branch c result
  .next branched.finish

end Sys2Proof.Machine
end

