-- ==== Sys2Proof/Machine/Step.lean ====
section
/-! DEFINITION. One `step()` call of the host (40_subleq.md R130, 60_exceptions.md R174), and placing an
instruction where the next step fetches. -/

namespace Sys2Proof.Machine

/-- One `step()`: a no-op in Halted (10_state.md R28); else the instruction at `ip`, executed in full (R138). -/
def step (s : State) : Host.Outcome State Fault Refusal :=
  if s.running then exec s.fetch s else .next s.haltedStep

/-- The state with the instruction of a table word stored where the next step fetches it; a Halted state also
gets `ip` at the entry point, since it fetches nothing (log entry 3). -/
def State.withFetchWord (s : State) (nbits w : Nat) : State :=
  (s.setIp s.placeIp).placeBytes s.placeIp (tableBytes nbits w)

end Sys2Proof.Machine
end

