-- ==== Sys2Proof/Machine/Assembler.lean ====
section
/-! DEFINITION. The assembler's input and output behaviour (30_encoding.md R90-R106): the toolchain that makes the
program image the core is constructed from. -/

namespace Sys2Proof.Machine

/-! ### Lexical level (R92; D12, D13, D14) -/

/-- `ws`: a space or a tab (R92). -/
def isBlankChar (c : Char) : Bool := c == ' ' || c == '\t'

/-- A decimal digit. -/
def isDigitChar (c : Char) : Bool := decide ('0'.toNat ≤ c.toNat) && decide (c.toNat ≤ '9'.toNat)

/-- The first character of an identifier: an ASCII letter or `_` (R92). -/
def isIdentStart (c : Char) : Bool :=
  (decide ('a'.toNat ≤ c.toNat) && decide (c.toNat ≤ 'z'.toNat))
    || (decide ('A'.toNat ≤ c.toNat) && decide (c.toNat ≤ 'Z'.toNat)) || c == '_'

/-- A later character of an identifier (R92). -/
def isIdentChar (c : Char) : Bool := isIdentStart c || isDigitChar c

/-- The longest prefix whose characters satisfy `p`, and the rest. -/
def spanText (p : Char → Bool) : Text → Text × Text
  | [] => ([], [])
  | c :: cs => if p c then (c :: (spanText p cs).1, (spanText p cs).2) else ([], c :: cs)

/-- The text after optional whitespace. -/
def skipBlanks (t : Text) : Text := (spanText isBlankChar t).2

/-- The number a list of decimal digits writes; leading zeros are allowed (R92). -/
def digitsValue (ds : Text) : Nat := ds.foldl (fun n c => 10 * n + (c.toNat - '0'.toNat)) 0

/-- One or more decimal digits (R92). -/
def parseDigits (t : Text) : Option (Nat × Text) :=
  match spanText isDigitChar t with
  | ([], _) => none
  | (d :: ds, rest) => some (digitsValue (d :: ds), rest)

/-- An identifier (R92, D12). -/
def parseIdentifier : Text → Option (Text × Text)
  | [] => none
  | c :: cs => if isIdentStart c then some (c :: (spanText isIdentChar cs).1, (spanText isIdentChar cs).2) else none

/-! ### The line grammar (R91, R93) -/

/-- The optional offset after a symbol: `+N` or `-N`, with no further sign (R91, D14). -/
def parseOffset : Text → Option (Int × Text)
  | '+' :: t => (parseDigits t).map (fun r => ((r.1 : Int), r.2))
  | '-' :: t => (parseDigits t).map (fun r => (-(r.1 : Int), r.2))
  | t => some (0, t)

/-- `expr := integer | "@" identifier (("+" | "-") integer)?` (R91). -/
def parseExpr : Text → Option (SourceOperand × Text)
  | '@' :: t =>
    match parseIdentifier t with
    | none => none
    | some (name, rest) => (parseOffset rest).map (fun r => (.symbol ('@' :: name) r.1, r.2))
  | '-' :: t => (parseDigits t).map (fun r => (.literal (-(r.1 : Int)), r.2))
  | t => (parseDigits t).map (fun r => (.literal (r.1 : Int), r.2))

/-- What may end a line: nothing, or a comment (R91). -/
def endsLine : Text → Bool
  | [] => true
  | c :: _ => c == ';'

/-- At least one whitespace character, then the text after all of them (R91). -/
def requireBlanks : Text → Option Text
  | [] => none
  | c :: cs => if isBlankChar c then some (skipBlanks cs) else none

/-- The text after an operand: further operands, each after a comma and whitespace; no whitespace before a comma
(R91, R92, R93). `fuel` bounds the number of operands; the line's length suffices. -/
def parseMoreOperands : Nat → Text → Option (List SourceOperand)
  | 0, _ => none
  | fuel + 1, ',' :: t =>
    match requireBlanks t with
    | none => none
    | some t' =>
      match parseExpr t' with
      | none => none
      | some (e, rest) => (parseMoreOperands fuel rest).map (e :: ·)
  | _ + 1, t => if endsLine (skipBlanks t) then some [] else none

/-- The text after an instruction's name: no operand, or whitespace and operands (R91). Whitespace that neither an
operand nor a comment follows is a syntax error (R92 "Nowhere else"; log entry 11). -/
def parseOperands (t : Text) : Option (List SourceOperand) :=
  if endsLine t then some []
  else
    match requireBlanks t with
    | none => none
    | some t' =>
      match t' with
      | ';' :: _ => some []
      | _ =>
        match parseExpr t' with
        | none => none
        | some (e, rest) => (parseMoreOperands (rest.length + 1) rest).map (e :: ·)

/-- `instr := "."? identifier`, the name with its dot (R91). -/
def parseName : Text → Option (Text × Text)
  | '.' :: t => (parseIdentifier t).map (fun r => ('.' :: r.1, r.2))
  | t => parseIdentifier t

/-- The part of a line after its label: nothing, a comment, or an instruction with its operands. -/
def parseBody (label : Option Text) (t : Text) : Option ParsedLine :=
  if endsLine t then some ⟨label, none⟩
  else
    match parseName t with
    | none => none
    | some (name, rest) => (parseOperands rest).map (fun ops => ⟨label, some (name, ops)⟩)

/-- One source line (R91): an optional label, an optional instruction, an optional comment. `none` is a syntax
error. -/
def parseLine (line : Text) : Option ParsedLine :=
  match skipBlanks line with
  | '@' :: t =>
    match parseIdentifier t with
    | some (name, ':' :: rest) => parseBody (some ('@' :: name)) (skipBlanks rest)
    | _ => none
  | t => parseBody none t

/-! ### Pass one (R94-R101, R103, R104) -/

/-- The symbol table's start: `@IN`, `@OUT` and `@HALT` (R95). -/
def predefinedSymbols : Symbols :=
  [(['@', 'I', 'N'], Config.addrIn), (['@', 'O', 'U', 'T'], Config.addrOut), (['@', 'H', 'A', 'L', 'T'], Config.addrHalt)]

/-- The address a symbol is bound to. -/
def lookupSymbol : Symbols → Text → Option Addr
  | [], _ => none
  | (n, a) :: rest, name => if n = name then some a else lookupSymbol rest name

/-- What pass one has built from the lines so far. -/
structure AsmState where
  emitted : List Emitted
  symbols : Symbols
  sourceMap : SourceMap
  deriving DecidableEq, Repr

/-- Pass one's start. -/
def asmStart : AsmState := ⟨[], predefinedSymbols, []⟩

/-- A symbol operand's byte, `u8(address + offset)` (R100). -/
def symbolByte (a : Addr) (offset : Int) : Byte := u8 ((a.toNat : Int) + offset)

/-- One operand in pass one (R99, R100, R101): a literal is checked against its class's range; a symbol is
resolved if it is bound, else kept pending. `none` is a range error. -/
def resolveOperand (symbols : Symbols) (range : Int × Int) : SourceOperand → Option Emitted
  | .literal v => if range.1 ≤ v ∧ v ≤ range.2 then some (.resolved (u8 v)) else none
  | .symbol name offset =>
    match lookupSymbol symbols name with
    | some a => some (.resolved (symbolByte a offset))
    | none => some (.pending name offset)

/-- Operands of one class, in order; `none` if one is out of range. -/
def resolveOperands (symbols : Symbols) (range : Int × Int) : List SourceOperand → Option (List Emitted)
  | [] => some []
  | e :: es =>
    match resolveOperand symbols range e with
    | none => none
    | some v => (resolveOperands symbols range es).map (v :: ·)

/-- The operand counts `subleq` takes: 2 or 3 (R96). -/
def subleqOperandCounts : List Nat := [2, 3]

/-- The operand count `.data` takes: exactly 1 (R98). -/
def dataOperandCounts : List Nat := [1]

/-- `subleq` (R96, R97): two or three addresses; the third defaults to the address after this instruction, modulo
256 (D15). `p` is the current output address. -/
def assembleSubleq (line : Nat) (text : Text) (p : Nat) (symbols : Symbols) (ops : List SourceOperand) :
    Except AsmError (List Emitted) :=
  if ops.length ∈ subleqOperandCounts then
    match resolveOperands symbols Config.addressRange ops with
    | none => .error (.rangeError line text)
    | some vs => .ok (if ops.length = 2 then vs ++ [.resolved (u8 ((p : Int) + (Config.insnBytes : Int)))] else vs)
  else .error (.argumentCount line text subleqOperandCounts ops.length)

/-- `.data` (R98): one value, one byte. -/
def assembleData (line : Nat) (text : Text) (symbols : Symbols) (ops : List SourceOperand) :
    Except AsmError (List Emitted) :=
  if ops.length ∈ dataOperandCounts then
    match resolveOperands symbols Config.valueRange ops with
    | none => .error (.rangeError line text)
    | some vs => .ok vs
  else .error (.argumentCount line text dataOperandCounts ops.length)

/-- The two names the assembler knows (R94). -/
def nameSubleq : Text := ['s', 'u', 'b', 'l', 'e', 'q']

/-- The directive's name (R94). -/
def nameData : Text := ['.', 'd', 'a', 't', 'a']

/-- A line's label is bound to the current output address, before the line's operands are resolved; at most once,
and not at 256 or beyond (R95, R104). -/
def bindLabel (line : Nat) (text : Text) (st : AsmState) : Option Text → Except AsmError AsmState
  | none => .ok st
  | some name =>
    match lookupSymbol st.symbols name with
    | some _ => .error (.duplicateLabel line text name)
    | none =>
      if st.emitted.length < Config.memSize then
        .ok { st with symbols := st.symbols ++ [(name, BitVec.ofNat 8 st.emitted.length)] }
      else .error (.rangeError line text)

/-- A line's values are appended, and its first address is mapped to the line (R97, R98, R103); no byte is emitted
at output address 256 or beyond (R104). -/
def emitValues (line : Nat) (text : Text) (st : AsmState) (vs : List Emitted) : Except AsmError AsmState :=
  if st.emitted.length + vs.length ≤ Config.memSize then
    .ok { st with
      emitted := st.emitted ++ vs
      sourceMap := st.sourceMap ++ [(BitVec.ofNat 8 st.emitted.length, ⟨line, text⟩)] }
  else .error (.rangeError line text)

/-- A line's instruction or directive (R94). -/
def assembleBody (line : Nat) (text : Text) (st : AsmState) : Option (Text × List SourceOperand) → Except AsmError AsmState
  | none => .ok st
  | some (name, ops) =>
    if name = nameSubleq then
      match assembleSubleq line text st.emitted.length st.symbols ops with
      | .error e => .error e
      | .ok vs => emitValues line text st vs
    else if name = nameData then
      match assembleData line text st.symbols ops with
      | .error e => .error e
      | .ok vs => emitValues line text st vs
    else .error (.unknownInstruction line text name)

/-- One line of pass one: the grammar, then the label, then the instruction (R91, R94-R98; log entry 10). -/
def assembleLine (line : Nat) (text : Text) (st : AsmState) : Except AsmError AsmState :=
  match parseLine text with
  | none => .error (.syntaxError line text)
  | some p =>
    match bindLabel line text st p.label with
    | .error e => .error e
    | .ok bound => assembleBody line text bound p.body

/-- Pass one over the lines in order; the first error wins (R105). `line` is the number of the first of them. -/
def passOne : Nat → List Text → AsmState → Except AsmError AsmState
  | _, [], st => .ok st
  | line, text :: rest, st =>
    match assembleLine line text st with
    | .error e => .error e
    | .ok st' => passOne (line + 1) rest st'

/-! ### Pass two and the output (R90, R101, R102) -/

/-- One emitted value with the complete symbol table (R101, R102). -/
def resolveEmitted (symbols : Symbols) : Emitted → Except AsmError Byte
  | .resolved v => .ok v
  | .pending name offset =>
    match lookupSymbol symbols name with
    | some a => .ok (symbolByte a offset)
    | none => .error (.undefinedReference name)

/-- Pass two over the emitted values in order (R101). -/
def passTwo (symbols : Symbols) : List Emitted → Except AsmError (List Byte)
  | [] => .ok []
  | e :: es =>
    match resolveEmitted symbols e with
    | .error err => .error err
    | .ok v =>
      match passTwo symbols es with
      | .error err => .error err
      | .ok vs => .ok (v :: vs)

/-- The `symbols` output: the labels, with or without the predefined ones (R90; U15, log entry 12). -/
def listedSymbols (symbols : Symbols) : Symbols :=
  if Config.symbolsListPredefined then symbols else symbols.drop predefinedSymbols.length

/-- The assembler (R90): source lines to a program, or the first error. `base` is LINE_NUMBER_BASE, 0 or 1, the number
of the first line (D11). -/
def assemble (base : Fin 2) (lines : List Text) : Except AsmError Program :=
  match passOne base.val lines asmStart with
  | .error e => .error e
  | .ok st =>
    match passTwo st.symbols st.emitted with
    | .error e => .error e
    | .ok bytes => .ok ⟨bytes.map (fun b => (b.toNat : Int)), st.sourceMap, listedSymbols st.symbols⟩

end Sys2Proof.Machine
end

