-- ==== Sys2Proof/Machine/Construct.lean ====
section
/-! DEFINITION. The host's side of the interface: construction from a program (70_reset_and_hazards.md R201) and
the answers to input requests (60_exceptions.md R182). -/

namespace Sys2Proof.Machine

/-- The construction state for an admitted program (R201, 10_state.md R39): the image zero-padded, `ip` 0, counters
0, nothing accessed; the events of the load, then one state update. `replies` are the answers the host has
ready. -/
def constructed (p : Program) (cb : Callbacks) (replies : List Byte) : State :=
  let mem := Memory.ofBytes 0 (p.bytes.map u8)
  { mem := mem
    ip := Config.resetIp
    cyclesExecuted := 0
    accessed := []
    sourceMap := p.sourceMap
    callbacks := cb
    inputQueue := replies
    inputCount := 0
    events := constructionEvents mem p.sourceMap }

/-- `Construct(program, callbacks)` (R201): refused unless the image is admitted (60_exceptions.md R162, D8). -/
def construct (p : Program) (cb : Callbacks) (replies : List Byte) : Host.Outcome State Fault Refusal :=
  if imageAdmitted p.bytes then .next (constructed p cb replies) else .refused .imageNotAdmitted

/-- The host makes one more answer ready for a coming input request (log entry 1). -/
def offerInput (s : State) (v : Byte) : State := { s with inputQueue := s.inputQueue ++ [v] }

end Sys2Proof.Machine
end

