-- ==== Sys2Proof/Safety.lean ====
section
/-! DEFINITION. What claims speak of: runs, the end of a run, what a run outputs and consumes, and the invariants of
the machine. -/

namespace Sys2Proof.Machine

/-- The state is reached from the construction of an admitted program by `Step()` calls and by the host making
answers ready between them (70_reset_and_hazards.md R206). -/
inductive Reachable (p : Program) (cb : Callbacks) : State → Prop where
  | construct (replies : List Byte) (s : State) (h : construct p cb replies = .next s) : Reachable p cb s
  | step (s t : State) (hs : Reachable p cb s) (h : step s = .next t) : Reachable p cb t
  | offer (s : State) (v : Byte) (hs : Reachable p cb s) : Reachable p cb (offerInput s v)

/-- A run has ended: the core is Halted (R206, 10_state.md R26). -/
def State.ended (s : State) : Bool := !s.running

/-- `run()` with a bound (60_exceptions.md R186): steps until Halted; `none` if the bound is used up first. -/
def runUntilHalted : Nat → State → Option State
  | 0, s => if s.running then none else some s
  | n + 1, s =>
    if s.running then
      match Sys2Proof.Machine.step s with
      | .next t => runUntilHalted n t
      | _ => none
    else some s

/-- The values sent to the output port so far, in order (R206). -/
def State.outputs (s : State) : List Int :=
  s.events.filterMap (fun | .out v => some v | _ => none)

/-- The input values consumed so far, in order (R206). -/
def State.inputs (s : State) : List Int :=
  s.events.filterMap (fun | .input v => some v | _ => none)

/-- The scoring triple (cycles, bytes, programBytes) of a program's run (60_exceptions.md R169). -/
def scoringTriple (p : Program) (s : State) : Nat × Nat × Nat :=
  (s.cyclesExecuted, s.bytesAccessed, p.bytes.length)

/-- Applies one event to a copy of the cells: what a host does that tracks memory (20_memory.md R70). -/
def replayEvent (m : Memory) : Event → Memory
  | .memWrite A v => m.write A.toNat v
  | _ => m

/-- The cells as a host reconstructs them from the events it was sent (R70). -/
def replay (es : List Event) : Memory := es.foldl replayEvent []

/-- Whether an event is a halt notification. -/
def Event.isHalt : Event → Bool
  | .halt _ _ => true
  | _ => false

/-- Whether an event is a state update. -/
def Event.isUpdate : Event → Bool
  | .stateUpdated _ _ _ _ _ _ => true
  | _ => false

/-- Whether an event is an answered input request. -/
def Event.isInput : Event → Bool
  | .input _ => true
  | _ => false

/-- Whether an event is a write to general memory or to the output port. -/
def Event.isWrite : Event → Bool
  | .memWrite _ _ => true
  | .out _ => true
  | _ => false

/-- The memory-write notifications track every cell exactly (R70). -/
def State.tracked (s : State) : Prop := replay s.events = s.mem

/-- The halt notification has been sent exactly once if the core is Halted, and not at all while it is Running
(60_exceptions.md R185, 10_state.md R34). -/
def State.haltSentOnce (s : State) : Prop := s.events.countP Event.isHalt = if s.running then 0 else 1

/-- One state update at construction and one for each executed step (R184). -/
def State.updatesCounted (s : State) : Prop := s.events.countP Event.isUpdate = s.cyclesExecuted + 1

/-- One write event for each cell at construction and one for each executed step (R181, R183, R188). -/
def State.writesCounted (s : State) : Prop := s.events.countP Event.isWrite = Config.memSize + s.cyclesExecuted

/-- The input requests issued are the ones answered (R182). -/
def State.inputsCounted (s : State) : Prop := s.events.countP Event.isInput = s.inputCount

/-- The invariant of the machine: canonical collections and an event record that agrees with the state. -/
def State.Inv (s : State) : Prop :=
  s.wf = true ∧ s.tracked ∧ s.haltSentOnce ∧ s.updatesCounted ∧ s.writesCounted ∧ s.inputsCounted

/-- Two states agree on the state of the core itself (10_state.md R20). -/
def SameCore (s t : State) : Prop :=
  s.mem = t.mem ∧ s.ip = t.ip ∧ s.cyclesExecuted = t.cyclesExecuted ∧ s.accessed = t.accessed

end Sys2Proof.Machine
end

