-- ==== Sys2Proof/Certificates/Slice0/Obligations.lean ====
section
/-! DEFINITION. The statements for the provers, one `def Obligations.<Name> : Prop` each. Each docstring names the
rule of spec/ it formalises. Where a rule is an inference or a decision that the spec marks as its own, or a choice of
the model's log, the docstring says so and the statement's basis is derived. -/

/-! ### The step's quantities, written from 40_subleq.md R130 apart from the model's operations -/

namespace Sys2Proof.Stated
open Sys2Proof.Machine

/-- The value an input request would return in `s`: the host's answer, or 0 with no input callback (20_memory.md R55). -/
def inValue (s : State) : Byte :=
  if s.callbacks.input = true then s.inputQueue.headD (Config.inputReply s.inputCount) else 0#8

/-- `bv` (R130). -/
def bValue (s : State) (b : Addr) : Byte := if b = 253#8 then inValue s else s.mem.read b.toNat

/-- `result <- (av - bv) mod 256` (R130). -/
def result (s : State) (a b : Addr) : Byte :=
  BitVec.ofInt 8 ((((s.mem.read a.toNat).toNat : Int) - ((bValue s b).toNat : Int)) % 256)

/-- The new `ip` (R130). -/
def newIp (s : State) (a b c : Addr) : Addr := if s8 (result s a b) ≤ 0 then c else s.ip + 3#8

/-- The input transaction of the step, if it issues one (60_exceptions.md R182). -/
def inputEvents (s : State) (b : Addr) : List Event :=
  if b = 253#8 ∧ s.callbacks.input = true then [.input (s8 (inValue s))] else []

/-- The write transaction of the step (R181, R183). -/
def writeEvent (s : State) (a b : Addr) : Event :=
  if a = 254#8 then .out (s8 (result s a b)) else .memWrite a (result s a b)

/-- The addresses the step touches (10_state.md R32). -/
def touched (s : State) (a b : Addr) : List Addr := [s.ip, s.ip + 1#8, s.ip + 2#8, a, b]

/-- The state update of a finished step (R184): its payload is read off the state it leaves. -/
def updateOf (t : State) : Event :=
  .stateUpdated (decide (t.ip.toNat + 3 ≤ 255)) t.ip (lineOf t.sourceMap t.ip) (textOf t.sourceMap t.ip)
    t.cyclesExecuted t.accessed.length

/-- The halt notification of a finished step, if it ends Halted (R185). -/
def haltOf (t : State) : List Event :=
  if t.ip.toNat + 3 ≤ 255 then [] else [.halt t.cyclesExecuted t.accessed.length]

/-- The step from `s` to `t` with destination `a` subtracted `bv` from the stored byte `mem[a]`, and put the difference in
`mem[a]`, or sent it to the output port for `a = 254`. -/
def stepGives (s t : State) (a : Addr) (bv : Byte) : Prop :=
  (a ≠ 254#8 → t.mem.read a.toNat = s.mem.read a.toNat - bv ∧ t.outputs = s.outputs) ∧
  (a = 254#8 → t.mem = s.mem ∧ t.outputs = s.outputs ++ [s8 (s.mem.read 254 - bv)])

/-- An event with the trace's line number and source text erased, and all else kept. -/
def eraseLine : Event → Event
  | .stateUpdated running ip _ _ cycles bytes => .stateUpdated running ip none none cycles bytes
  | e => e

/-- The operands the line grammar reads from the text after an operand; `none` is a syntax error. -/
def operandsAfter (t : Text) : Option (List SourceOperand) := parseMoreOperands (t.length + 1) t

/-- The same core with its output callback left out. -/
def withoutOutput (s : State) : State := { s with callbacks := { s.callbacks with output := false } }

end Sys2Proof.Stated

section
open Sys2Proof Sys2Proof.Machine Sys2Proof.Stated

/-! ### Numbers -/

/-- 00_scope.md R10: `u8` is the value modulo 256, `s8` is the given formula, its value on both halves of the byte
range, and the two conversions are inverse on their ranges. -/
def Obligations.SignedAndUnsignedConversions : Prop :=
  (∀ v : Int, ((u8 v).toNat : Int) = v % 256) ∧
  (∀ u : Byte, s8 u = ((u &&& 0x7F#8).toNat : Int) - (if (u &&& 0x80#8) ≠ 0#8 then 128 else 0)) ∧
  (∀ u : Byte, u.toNat ≤ 127 → s8 u = u.toNat) ∧
  (∀ u : Byte, 128 ≤ u.toNat → s8 u = (u.toNat : Int) - 256) ∧
  (∀ u : Byte, u8 (s8 u) = u) ∧
  (∀ v : Int, -128 ≤ v → v ≤ 127 → s8 (u8 v) = v)

/-- 40_subleq.md section 2 (Arithmetic): the difference modulo 256; that it is the same for signed operands is the
spec's own inference there. -/
def Obligations.SubtractionWrapsWhateverTheSign : Prop :=
  ∀ av bv : Byte,
    ((subtract av bv).toNat : Int) = ((av.toNat : Int) - bv.toNat) % 256 ∧
    ((subtract av bv).toNat : Int) = (s8 av - s8 bv) % 256

/-- 40_subleq.md section 2 (Branch condition): taken exactly when the result is 0 or in 128..255, not for 1..127; the
ranges are the spec's own inference. -/
def Obligations.BranchTakenExactlyWhenNonPositive : Prop :=
  ∀ r : Byte,
    (branchTaken r = true ↔ s8 r ≤ 0) ∧
    (branchTaken r = true ↔ r = 0#8 ∨ 128 ≤ r.toNat) ∧
    (branchTaken r = false ↔ 1 ≤ r.toNat ∧ r.toNat ≤ 127)

/-- 40_subleq.md section 3 (Overflow outcomes), with 90_conflicts.md C2: the three silent wraps. -/
def Obligations.OverflowOutcomesAreSilent : Prop :=
  (subtract 127#8 255#8 = 128#8 ∧ s8 128#8 = -128 ∧ branchTaken 128#8 = true) ∧
  (subtract 128#8 1#8 = 127#8 ∧ s8 127#8 = 127 ∧ branchTaken 127#8 = false) ∧
  (subtract 0#8 128#8 = 128#8)

/-! ### Encoding -/

/-- 30_encoding.md R87: the decoder takes three bytes whatever they are, and never more or fewer. -/
def Obligations.DecoderAlwaysTakesThreeBytes : Prop :=
  ∀ bs : List Byte,
    (3 ≤ bs.length → ∃ i : Instr, decode bs = .ok (i, bs.drop 3) ∧ encode i = bs.take 3) ∧
    (bs.length < 3 → decode bs = .error (.truncated bs.length))

/-- 30_encoding.md sections 1 and 3: encoding and decoding agree both ways, on bytes, on the spec's own 24-bit notation
(D9) and on a table word (log entry 4), for every operand value. -/
def Obligations.DecodeAndEncodeAgree : Prop :=
  (∀ i : Instr, i.wf = true →
    (∀ rest, decode (encode i ++ rest) = .ok (i, rest)) ∧ decodeInsn24 (insn24 i) = i ∧
      decodeTableWord 24 (insn24 i).toNat = some i) ∧
  (∀ w : BitVec 24, insn24 (decodeInsn24 w) = w ∧ encode (decodeInsn24 w) = tableBytes 24 w.toNat ∧
    decodeTableWord 24 w.toNat = some (decodeInsn24 w))

/-- 30_encoding.md section 1: words written out bit by bit decode to the instruction they stand for: the bytes of two
instructions and the table words of two. How a table word's bits are numbered is the spec's own notation D9 and the
model's reading of it (log entry 4). -/
def Obligations.WrittenOutWordsDecode : Prop :=
  decode [0b00000110#8, 0b00000111#8, 0b00000011#8] = .ok (.subleq 6#8 7#8 3#8, []) ∧
  decode [0b11111110#8, 0b11111101#8, 0b00000011#8] = .ok (.subleq 254#8 253#8 3#8, []) ∧
  decodeTableWord 24 0b111111101111110100000011 = some (.subleq 254#8 253#8 3#8) ∧
  decodeTableWord 24 0b000011010000110111111111 = some (.subleq 13#8 13#8 255#8)

/-! ### The step -/

/-- 20_memory.md section 2 (Instruction fetch), 40_subleq.md section 1: while Running, the three bytes at `ip`,
`ip+1`, `ip+2` decode to an instruction, and the step is exactly that instruction executed in that state; nothing is
done around it. -/
def Obligations.StepRunsDecodedInstruction : Prop :=
  ∀ (s : State) (i : Instr), s.running = true → i.wf = true →
    decode [s.mem.read s.ip.toNat, s.mem.read (s.ip.toNat + 1), s.mem.read (s.ip.toNat + 2)] = .ok (i, []) →
    step s = exec i s

/-- The model's own placing of an instruction (log entry 3): the next step runs exactly the placed word, also in a
Halted state, where `ip` goes to the entry point. -/
def Obligations.PlacedWordRunsNext : Prop :=
  ∀ (s : State) (nbits w : Nat), s.wf = true → nbits ≤ 24 →
    ∃ i, decodeTableWord nbits w = some i ∧ step (s.withFetchWord nbits w) = exec i (s.withFetchWord nbits w)

/-- 40_subleq.md section 1 (R130, whole), completion: while Running, `subleq a, b, c` answers the next state of the
pseudocode, every field of it. The touched addresses are the spec's own decision D5; the host's answer is a queued reply
or a free value (log entry 1). -/
def Obligations.SubleqNextState : Prop :=
  ∀ (s : State) (a b c : Addr), s.running = true →
    ∃ t, exec (.subleq a b c) s = .next t ∧
      t.mem = (if a = 254#8 then s.mem else s.mem.write a.toNat (result s a b)) ∧
      t.ip = newIp s a b c ∧
      t.cyclesExecuted = s.cyclesExecuted + 1 ∧
      (∀ A, A ∈ t.accessed ↔ A ∈ s.accessed ∨ A ∈ touched s a b) ∧
      t.sourceMap = s.sourceMap ∧ t.callbacks = s.callbacks ∧
      t.inputQueue = (if b = 253#8 ∧ s.callbacks.input = true then s.inputQueue.tail else s.inputQueue) ∧
      t.inputCount = (if b = 253#8 ∧ s.callbacks.input = true then s.inputCount + 1 else s.inputCount) ∧
      t.events = s.events ++ inputEvents s b ++ [writeEvent s a b] ++ [updateOf t] ++ haltOf t

/-- 60_exceptions.md section 1, 40_subleq.md section 2: no step stops, and each is a no-op in Halted and one counted
instruction in Running. -/
def Obligations.EveryStepAnswersNextState : Prop :=
  ∀ s : State, ∃ t, step s = .next t ∧
    (s.running = false → t = s) ∧ (s.running = true → t.cyclesExecuted = s.cyclesExecuted + 1 ∧ exec s.fetch s = .next t)

/-- 20_memory.md R54: the A read is the stored byte for every `a`, the reserved addresses included, whatever `b` is; it
consumes no input: the inputs consumed depend on `b` alone. -/
def Obligations.OperandAReadsTheStoredByte : Prop :=
  ∀ (s : State) (a b c : Addr), s.wf = true → s.running = true →
    s.readA a = s.mem.read a.toNat ∧
    ∃ t, exec (.subleq a b c) s = .next t ∧
      stepGives s t a (bValue s b) ∧
      t.inputs = s.inputs ++ (if b = 253#8 ∧ s.callbacks.input = true then [s8 (inValue s)] else [])

/-- 20_memory.md section 2 (Operand B read and the input port), 60_exceptions.md section 9: only `b = 253` with an input
callback asks the host, once, and uses the answer; without a callback the value is 0; `mem[253]` is not read. That the
answer is any value the host supplies is the spec's own decision D3 (log entry 1). -/
def Obligations.InputPortReadsTheHost : Prop :=
  ∀ (s : State) (a b c : Addr), s.wf = true → s.running = true →
    ∃ t, exec (.subleq a b c) s = .next t ∧ b ∈ t.accessed ∧
      (b = 253#8 → s.callbacks.input = true → ∀ v rest, s.inputQueue = v :: rest →
        stepGives s t a v ∧ t.inputQueue = rest ∧ t.inputCount = s.inputCount + 1 ∧ t.inputs = s.inputs ++ [s8 v]) ∧
      (b = 253#8 → s.callbacks.input = true → s.inputQueue = [] →
        stepGives s t a (Config.inputReply s.inputCount) ∧ t.inputQueue = [] ∧ t.inputCount = s.inputCount + 1 ∧
        t.inputs = s.inputs ++ [s8 (Config.inputReply s.inputCount)]) ∧
      (b = 253#8 → s.callbacks.input = false →
        stepGives s t a 0#8 ∧ t.inputQueue = s.inputQueue ∧ t.inputCount = s.inputCount ∧ t.inputs = s.inputs) ∧
      (b ≠ 253#8 →
        stepGives s t a (s.mem.read b.toNat) ∧ t.inputQueue = s.inputQueue ∧ t.inputCount = s.inputCount ∧
        t.inputs = s.inputs)

/-- 20_memory.md R56 and 60_exceptions.md R183: a write-back to 254 sends the signed result to the output device and
changes no cell; any other is a store with its notification; `a` is touched either way; and with no output callback the
value is discarded and the step is otherwise identical. -/
def Obligations.WriteBackStoresOrOutputs : Prop :=
  ∀ (s : State) (a b c : Addr), s.wf = true → s.running = true →
    ∃ t, exec (.subleq a b c) s = .next t ∧ a ∈ t.accessed ∧
      -128 ≤ s8 (result s a b) ∧ s8 (result s a b) ≤ 127 ∧
      (a = 254#8 → t.mem = s.mem ∧
        ∃ tail, t.events = s.events ++ inputEvents s b ++ .out (s8 (result s a b)) :: tail ∧
          tail.countP Event.isWrite = 0) ∧
      (a ≠ 254#8 → t.mem.read a.toNat = result s a b ∧
        ∃ tail, t.events = s.events ++ inputEvents s b ++ .memWrite a (result s a b) :: tail ∧
          tail.countP Event.isWrite = 0) ∧
      exec (.subleq a b c) (withoutOutput s) = .next (withoutOutput t) ∧
      (∀ v, .out v ∉ (withoutOutput t).delivered)

/-- 40_subleq.md R135: the absolute target if taken, `ip0 + 3` if not, the same `ip` when `c = ip0 + 3`; any target;
the next fetch is at the new `ip`; a target of 253..255 halts. -/
def Obligations.ControlTransferIsAbsolute : Prop :=
  ∀ (s : State) (a b c : Addr), s.running = true →
    ∃ t, exec (.subleq a b c) s = .next t ∧
      (s8 (result s a b) ≤ 0 → t.ip = c) ∧
      (0 < s8 (result s a b) → t.ip.toNat = s.ip.toNat + 3) ∧
      (c.toNat = s.ip.toNat + 3 → t.ip = c) ∧
      (s8 (result s a b) ≤ 0 → 253 ≤ c.toNat → t.running = false) ∧
      (t.running = true → step t =
        exec (.subleq (t.mem.read t.ip.toNat) (t.mem.read (t.ip.toNat + 1)) (t.mem.read (t.ip.toNat + 2))) t)

/-- 40_subleq.md R136: one more cycle, `running` from the new `ip`, then the state update and, if Halted, the halt
notification, both with the counters after this step. -/
def Obligations.StepEndsWithCountersAndNotifications : Prop :=
  ∀ (s : State) (a b c : Addr), s.running = true →
    ∃ t, exec (.subleq a b c) s = .next t ∧ t.cyclesExecuted = s.cyclesExecuted + 1 ∧
      t.running = decide (t.ip.toNat + 3 ≤ 255) ∧
      ∃ before, before.countP Event.isUpdate = 0 ∧ before.countP Event.isHalt = 0 ∧
        t.events = s.events ++ before ++
          .stateUpdated t.running t.ip (lineOf t.sourceMap t.ip) (textOf t.sourceMap t.ip) t.cyclesExecuted
            t.bytesAccessed ::
          (if t.running = true then [] else [.halt t.cyclesExecuted t.bytesAccessed])

/-- 40_subleq.md section 2 (the frame): the step writes no cell but `mem[a]`, and none when `a = 254`; `mem[253]` in
particular only when `a = 253`; the configuration never changes; no event is taken back; no address leaves `accessed`;
the input queue changes only for `b = 253`. In every state, Running or not. -/
def Obligations.SubleqFrame : Prop :=
  ∀ (s t : State) (a b c : Addr), exec (.subleq a b c) s = .next t →
    (a = 254#8 → ∀ A : Nat, t.mem.read A = s.mem.read A) ∧
    (a ≠ 254#8 → ∀ A : Nat, A ≠ a.toNat → t.mem.read A = s.mem.read A) ∧
    t.sourceMap = s.sourceMap ∧ t.callbacks = s.callbacks ∧
    (∃ more, t.events = s.events ++ more) ∧ (∀ A, A ∈ s.accessed → A ∈ t.accessed) ∧
    (b ≠ 253#8 → t.inputQueue = s.inputQueue ∧ t.inputCount = s.inputCount)

/-- 10_state.md section 7: an executed step adds exactly the fetched addresses, `a` and `b` to the accessed set, `c` not
as an address. Membership is the spec's own decision D5. -/
def Obligations.StepTouchesFetchAndOperands : Prop :=
  ∀ (s : State), s.running = true →
    ∃ t, step s = .next t ∧
      ∀ A : Addr, A ∈ t.accessed ↔ A ∈ s.accessed ∨ A.toNat = s.ip.toNat ∨ A.toNat = s.ip.toNat + 1 ∨
        A.toNat = s.ip.toNat + 2 ∨ A = s.mem.read s.ip.toNat ∨ A = s.mem.read (s.ip.toNat + 1)

/-- 20_memory.md section 2 (address 254): no step changes `mem[254]`, in any state. The spec's own inference. -/
def Obligations.OutputCellNeverChanges : Prop :=
  ∀ s t : State, step s = .next t → t.mem.read 254 = s.mem.read 254

/-- 40_subleq.md section 3 (Self-modification): a step whose `a` is one of its own bytes runs with the bytes fetched, and
the new byte is there for the next fetch; a `b` that is one of them reads the fetched byte. The spec's own inference. -/
def Obligations.OwnBytesAreFetchedBeforeTheWrite : Prop :=
  ∀ (s : State) (a b c : Addr), s.wf = true → s.running = true → s.fetch = .subleq a b c →
    (a = s.ip ∨ a = s.ip + 1#8 ∨ a = s.ip + 2#8) →
    ∃ t, step s = .next t ∧ t.ip = newIp s a b c ∧
      (a ≠ 254#8 → t.mem.read a.toNat = result s a b) ∧
      (b ≠ 253#8 → b = s.ip → bValue s b = a) ∧
      (b ≠ 253#8 → b = s.ip + 1#8 → bValue s b = b) ∧
      (b ≠ 253#8 → b = s.ip + 2#8 → bValue s b = c)

/-- 40_subleq.md section 3: `subleq x, x, c` clears `x` and always branches; with `x = 254` it outputs 0 and changes no
cell. The spec's own inference. -/
def Obligations.SubtractFromItselfClearsAndJumps : Prop :=
  ∀ (s : State) (x c : Addr), s.wf = true → s.running = true → x ≠ 253#8 →
    ∃ t, exec (.subleq x x c) s = .next t ∧ t.ip = c ∧
      (x ≠ 254#8 → t.mem.read x.toNat = 0#8) ∧
      (x = 254#8 → t.mem = s.mem ∧ t.outputs = s.outputs ++ [0])

/-- 40_subleq.md section 3 (Combinations with the input port): 253 as the destination is a plain cell, with and without
an input read; 254 and 253 together output the negated input when `mem[254] = 0`. The spec's own inference. -/
def Obligations.InputPortCombinations : Prop :=
  ∀ (s : State) (b c : Addr), s.wf = true → s.running = true →
    (b ≠ 253#8 → ∃ t, exec (.subleq 253#8 b c) s = .next t ∧
      t.mem.read 253 = s.mem.read 253 - s.mem.read b.toNat ∧ t.inputs = s.inputs) ∧
    (∃ t, exec (.subleq 253#8 253#8 c) s = .next t ∧ t.mem.read 253 = s.mem.read 253 - inValue s) ∧
    (∃ t, exec (.subleq 254#8 253#8 c) s = .next t ∧
      t.outputs = s.outputs ++ [s8 (s.mem.read 254 - inValue s)] ∧
      (s.mem.read 254 = 0#8 → t.outputs = s.outputs ++ [s8 (u8 (-(s8 (inValue s))))]))

/-! ### Halting -/

/-- 10_state.md R26: Running exactly when `ip + 3 <= 255`; 0..252 Running, 253..255 Halted (90_conflicts.md C1). -/
def Obligations.HaltConditionIsAFunctionOfIp : Prop :=
  ∀ s : State,
    (s.running = true ↔ s.ip.toNat + 3 ≤ 255) ∧
    (s.ip.toNat ≤ 252 → s.running = true) ∧
    (253 ≤ s.ip.toNat → s.running = false)

/-- 10_state.md R28: a `step()` in Halted changes nothing at all, so nothing leaves Halted. -/
def Obligations.HaltedStepIsNoOp : Prop :=
  ∀ s : State, s.running = false → step s = .next s

/-- 60_exceptions.md R185: the halt notification is sent in the step that halts, right after its state update and with
the same counters; in no step that stays Running, in no step of a Halted core, and not at construction. -/
def Obligations.HaltNotifiedInTheHaltingStep : Prop :=
  (∀ s t : State, s.running = true → step s = .next t → t.running = false →
    ∃ before, before.countP Event.isHalt = 0 ∧
      t.events = s.events ++ before ++
        [.stateUpdated false t.ip (lineOf t.sourceMap t.ip) (textOf t.sourceMap t.ip) t.cyclesExecuted t.bytesAccessed,
         .halt t.cyclesExecuted t.bytesAccessed]) ∧
  (∀ s t : State, step s = .next t → t.running = true ∨ s.running = false →
    ∃ more, more.countP Event.isHalt = 0 ∧ t.events = s.events ++ more) ∧
  (∀ (p : Program) (cb : Callbacks) (replies : List Byte) (s : State), construct p cb replies = .next s →
    s.running = true ∧ s.events.countP Event.isHalt = 0)

/-- 40_subleq.md section 3 (the empty program): from any state with nothing in memory and `ip = 0`, every number of steps
gives such a state again, with one cycle counted for each. The spec's own inference. -/
def Obligations.ZeroInstructionLoopsForever : Prop :=
  ∀ (n : Nat) (s : State), s.mem = [] → s.ip = 0#8 →
    ∃ t, Host.Core.run core n s = .next t ∧ t.mem = [] ∧ t.ip = 0#8 ∧ t.running = true ∧
      t.cyclesExecuted = s.cyclesExecuted + n

/-- 70_reset_and_hazards.md section 3, 60_exceptions.md section 9: the bounded run answers a state exactly when
that state is Halted and is the one some number of `step()` calls, at most the bound, leaves. -/
def Obligations.BoundedRunEndsHalted : Prop :=
  (∀ (n : Nat) (s t : State), runUntilHalted n s = some t →
    t.running = false ∧ ∃ k, k ≤ n ∧ Host.Core.run core k s = .next t) ∧
  (∀ (n k : Nat) (s t : State), k ≤ n → Host.Core.run core k s = .next t → t.running = false →
    runUntilHalted n s = some t)

/-! ### The host boundary -/

/-- 10_state.md R36: the callback set is fixed; leaving out a notification callback delivers that event to no one and
changes no transition. Whether an input device is attached is the one part a step reads. -/
def Obligations.CallbacksNeverChangeTransitions : Prop :=
  (∀ s t : State, step s = .next t → t.callbacks = s.callbacks ∧
    (∀ cb : Callbacks, cb.input = s.callbacks.input →
      step { s with callbacks := cb } = .next { t with callbacks := cb }) ∧
    (s.callbacks.input = false → t.inputs = s.inputs ∧ t.inputCount = s.inputCount)) ∧
  (∀ s : State,
    (s.callbacks.output = false → s.delivered.countP (fun e => match e with | .out _ => true | _ => false) = 0) ∧
    (s.callbacks.writeMemory = false →
      s.delivered.countP (fun e => match e with | .memWrite _ _ => true | _ => false) = 0) ∧
    (s.callbacks.stateUpdated = false → s.delivered.countP Event.isUpdate = 0) ∧
    (s.callbacks.halt = false → s.delivered.countP Event.isHalt = 0) ∧
    (s.callbacks = Callbacks.all → s.delivered = s.events))

/-- 10_state.md R35: the source map comes from the program, never changes, and is read only for the trace: another map
gives the same step and the same events, in number, order and every payload, but for the line number and the source text
of its state updates. -/
def Obligations.SourceMapOnlyTraces : Prop :=
  (∀ (p : Program) (cb : Callbacks) (replies : List Byte) (s : State),
    construct p cb replies = .next s → s.sourceMap = p.sourceMap) ∧
  (∀ (s t : State) (m : SourceMap), step s = .next t → t.sourceMap = s.sourceMap ∧
    ∃ t', step { s with sourceMap := m } = .next t' ∧ SameCore t' t ∧ t'.inputQueue = t.inputQueue ∧
      t'.inputCount = t.inputCount ∧ t'.callbacks = t.callbacks ∧
      t'.events.map eraseLine = t.events.map eraseLine)

/-- 60_exceptions.md section 9: the core's next state is a function of its state and, when `b = 253`, the input value;
nothing else of the state matters. The spec's own inference. -/
def Obligations.NextStateDependsOnCoreAndInput : Prop :=
  ∀ s t s' t' : State, SameCore s t → step s = .next s' → step t = .next t' →
    (s.mem.read (s.ip.toNat + 1) = 253#8 → inValue s = inValue t) → SameCore s' t'

/-- 60_exceptions.md section 7 (Source-line lookup): the entry found is mapped, lies at or below `ip`, and no mapped
address lies between; nothing is found exactly when no mapped address is at or below `ip` (the spec's own decision
D10). -/
def Obligations.LineLookupIsNearestPreceding : Prop :=
  ∀ (m : SourceMap) (ip : Addr),
    (∀ k l, nearestLine m ip = some (k, l) →
      (k, l) ∈ m ∧ k ≤ ip ∧ (∀ e ∈ m, e.1 ≤ ip → e.1 ≤ k) ∧ lineOf m ip = some l.lineNumber ∧
        textOf m ip = some l.sourceText) ∧
    (nearestLine m ip = none ↔ ∀ e ∈ m, ¬e.1 ≤ ip) ∧
    (nearestLine m ip = none → lineOf m ip = none ∧ textOf m ip = none)

/-! ### Construction and reset -/

/-- 70_reset_and_hazards.md section 1, 10_state.md section 11: construction from an admitted image. The counters, the
accessed set and the events' number and order are the spec's own decisions D4 to D7. -/
def Obligations.ConstructionState : Prop :=
  ∀ (p : Program) (cb : Callbacks) (replies : List Byte), imageAdmitted p.bytes = true →
    ∃ s, construct p cb replies = .next s ∧ s.wf = true ∧
      (∀ A : Nat, A < 256 → ((s.mem.read A).toNat : Int) = p.bytes.getD A 0) ∧
      s.ip = 0#8 ∧ s.running = true ∧ s.cyclesExecuted = 0 ∧ s.accessed = [] ∧ s.bytesAccessed = 0 ∧
      s.sourceMap = p.sourceMap ∧ s.callbacks = cb ∧
      s.events.length = 257 ∧
      (∀ A : Nat, A < 256 → s.events[A]? = some (.memWrite (BitVec.ofNat 8 A) (s.mem.read A))) ∧
      s.events[256]? = some (.stateUpdated true 0#8 (lineOf p.sourceMap 0#8) (textOf p.sourceMap 0#8) 0 0)

/-- 60_exceptions.md section 1 (malformed programs): an image of more than 256 entries, or with an entry outside 0..255,
is refused, and no other. The spec's own decision D8. -/
def Obligations.MalformedImageIsRefused : Prop :=
  ∀ (p : Program) (cb : Callbacks) (replies : List Byte),
    (256 < p.bytes.length ∨ (∃ v ∈ p.bytes, v < 0 ∨ 255 < v)) ↔
      construct p cb replies = .refused .imageNotAdmitted

/-- 10_state.md section 11 for the empty program, whose choice for the reset state, with every callback attached and no
input queued, is the model's (log entry 2). -/
def Obligations.ResetIsTheEmptyConstruction : Prop :=
  construct Program.empty Callbacks.all [] = .next State.reset ∧
  (∀ A : Nat, State.reset.mem.read A = 0#8) ∧ State.reset.ip = 0#8 ∧ State.reset.running = true ∧
  State.reset.cyclesExecuted = 0 ∧ State.reset.accessed = [] ∧ State.reset.bytesAccessed = 0

/-! ### Invariants -/

/-- 20_memory.md section 6, 60_exceptions.md section 9, 10_state.md sections 7 and 8: every step keeps the canonical
collections, the exact tracking of memory by notifications, the halt notification sent once, and the counts of updates,
writes and inputs. -/
def Obligations.StepKeepsInvariant : Prop :=
  ∀ s t : State, s.Inv → step s = .next t → t.Inv

/-- The same invariant at the reset state. Which program and callbacks the reset state has is the model's choice (log
entry 2), and its 256 write events, zero padding included, are the spec's own decision D6 (log entry 16). -/
def Obligations.ResetMeetsInvariant : Prop := State.reset.Inv

/-- The same invariant at every construction. The 256 write events are the spec's own decision D6 (log entry 16), the
counter's start at 0 is D4 (log entry 8), and the admitted images are D8 (log entry 15). -/
def Obligations.ConstructionMeetsInvariant : Prop :=
  ∀ (p : Program) (cb : Callbacks) (replies : List Byte) (s : State), construct p cb replies = .next s → s.Inv

/-- Every state any run reaches, from any admitted program with any callbacks and any answers of the host, meets the
invariant; its halt notifications are those of R185, its cells those its notifications tell (R70). The run corollary of the two
statements before it; its 256 write events at construction are the spec's own decision D6 (log entry 16), and the counter's
start at 0 is D4 (log entry 8). -/
def Obligations.ReachableStatesMeetInvariant : Prop :=
  ∀ (p : Program) (cb : Callbacks) (s : State), Reachable p cb s → s.Inv

/-- 20_memory.md section 2 (address 254), 70_reset_and_hazards.md section 2: in every run `mem[254]` is the image's byte
254, or 0 for an image of at most 254 entries. The spec's own inference. -/
def Obligations.OutputCellHoldsTheImageByte : Prop :=
  ∀ (p : Program) (cb : Callbacks) (s : State), Reachable p cb s →
    ((s.mem.read 254).toNat : Int) = p.bytes.getD 254 0

/-- 10_state.md section 7: the accessed set has at most 256 elements. -/
def Obligations.BytesAccessedAtMost256 : Prop :=
  ∀ s : State, s.wf = true → s.bytesAccessed ≤ 256

/-- 10_state.md section 7, 60_exceptions.md section 4: both counters only grow; an executed step adds exactly one cycle, a
no-op none. Their unbounded width is the spec's own decision D4. -/
def Obligations.CountersNeverDecrease : Prop :=
  ∀ s t : State, step s = .next t →
    t.cyclesExecuted = s.cyclesExecuted + (if s.running = true then 1 else 0) ∧
    s.bytesAccessed ≤ t.bytesAccessed ∧ t.bytesAccessed ≤ s.bytesAccessed + 5 ∧
    (∀ A, A ∈ s.accessed → A ∈ t.accessed)

/-! ### The assembler -/

/-- 30_encoding.md R97: `subleq`'s three resolved operands are emitted in order at the output address, which advances by
3; literal operands are emitted exactly as given. -/
def Obligations.SubleqEmitsItsThreeOperands : Prop :=
  ∀ (line : Nat) (text : Text) (st : AsmState), st.emitted.length + 3 ≤ 256 →
    (∀ (x y z : SourceOperand) (a b c : Emitted),
      resolveOperand st.symbols Config.addressRange x = some a →
      resolveOperand st.symbols Config.addressRange y = some b →
      resolveOperand st.symbols Config.addressRange z = some c →
      ∃ st', assembleBody line text st (some (nameSubleq, [x, y, z])) = .ok st' ∧
        st'.emitted = st.emitted ++ [a, b, c] ∧ st'.emitted.length = st.emitted.length + 3) ∧
    (∀ a b c : Byte, ∃ st',
      assembleBody line text st (some (nameSubleq, [.literal a.toNat, .literal b.toNat, .literal c.toNat])) = .ok st' ∧
        st'.emitted = st.emitted ++ [.resolved a, .resolved b, .resolved c])

/-- 30_encoding.md section 7 (`subleq`): the two-operand form is the three-operand form with the address after the
instruction, 0 at output address 253 (the spec's own decision D15); any other number of operands is an
error that reports the count and the requirement (how the requirement is written is log entry 13). -/
def Obligations.TwoOperandSubleqTargetsTheNextAddress : Prop :=
  ∀ (line : Nat) (text : Text) (st : AsmState) (x y : SourceOperand),
    (st.emitted.length + 3 ≤ 255 →
      assembleBody line text st (some (nameSubleq, [x, y])) =
        assembleBody line text st (some (nameSubleq, [x, y, .literal (st.emitted.length + 3)]))) ∧
    (st.emitted.length = 253 →
      assembleBody line text st (some (nameSubleq, [x, y])) =
        assembleBody line text st (some (nameSubleq, [x, y, .literal 0]))) ∧
    (∀ ops : List SourceOperand, ops.length ≠ 2 → ops.length ≠ 3 →
      assembleBody line text st (some (nameSubleq, ops)) = .error (.argumentCount line text [2, 3] ops.length))

/-- 30_encoding.md section 7 (`.data`): `.data` takes exactly one operand and emits one byte, the value's two's-complement byte; the
output address advances by 1. That the error carries the requirement and the count is the model's choice (log entry 13). -/
def Obligations.DataEmitsOneByte : Prop :=
  ∀ (line : Nat) (text : Text) (st : AsmState),
    (st.emitted.length < 256 →
      (∀ v : Int, -128 ≤ v → v ≤ 127 → ∃ st',
        assembleBody line text st (some (nameData, [.literal v])) = .ok st' ∧
          st'.emitted = st.emitted ++ [.resolved (u8 v)] ∧ st'.emitted.length = st.emitted.length + 1) ∧
      (∀ (e : SourceOperand) (r : Emitted), resolveOperand st.symbols Config.valueRange e = some r → ∃ st',
        assembleBody line text st (some (nameData, [e])) = .ok st' ∧ st'.emitted = st.emitted ++ [r])) ∧
    (∀ ops : List SourceOperand, ops.length ≠ 1 →
      assembleBody line text st (some (nameData, ops)) = .error (.argumentCount line text [1] ops.length))

/-- 30_encoding.md R99: literals are checked against their class's range, every `subleq` operand against [0,255] and a
`.data` operand against [-128,127]; out of range is a fatal error, and in range the literal is taken. -/
def Obligations.LiteralsAreRangeChecked : Prop :=
  (∀ (line : Nat) (text : Text) (st : AsmState) (ops : List SourceOperand), ops.length = 2 ∨ ops.length = 3 →
    (∃ v : Int, .literal v ∈ ops ∧ (v < 0 ∨ 255 < v)) →
    assembleBody line text st (some (nameSubleq, ops)) = .error (.rangeError line text)) ∧
  (∀ (line : Nat) (text : Text) (st : AsmState) (v : Int), v < -128 ∨ 127 < v →
    assembleBody line text st (some (nameData, [.literal v])) = .error (.rangeError line text)) ∧
  (∀ (symbols : Symbols) (v : Int), 0 ≤ v → v ≤ 255 →
    ∃ b : Byte, resolveOperand symbols Config.addressRange (.literal v) = some (.resolved b) ∧ (b.toNat : Int) = v) ∧
  (∀ (symbols : Symbols) (v : Int), -128 ≤ v → v ≤ 127 →
    ∃ b : Byte, resolveOperand symbols Config.valueRange (.literal v) = some (.resolved b) ∧ s8 b = v) ∧
  (∀ symbols : Symbols, resolveOperand symbols Config.valueRange (.literal (-128)) = some (.resolved 128#8))

/-- 30_encoding.md R100: a symbol operand is the address plus the offset, in full precision and then modulo 256, in
either operand class with no range check, in either pass. -/
def Obligations.SymbolOperandsWrap : Prop :=
  (∀ (symbols : Symbols) (range : Int × Int) (name : Text) (offset : Int) (a : Addr),
    lookupSymbol symbols name = some a →
    ∃ b : Byte, resolveOperand symbols range (.symbol name offset) = some (.resolved b) ∧
      resolveEmitted symbols (.pending name offset) = .ok b ∧ (b.toNat : Int) = ((a.toNat : Int) + offset) % 256) ∧
  (∀ a : Addr, symbolByte a 0 = a) ∧ symbolByte 0#8 (-1) = 255#8

/-- 30_encoding.md R101: an unbound symbol is kept pending with its offset; pass two replaces every emitted value in order
with the complete table; and a reference resolved at once has the byte it would have had in pass two, so resolution does
not depend on the order of lines. -/
def Obligations.LabelResolutionIsOrderIndependent : Prop :=
  (∀ (symbols : Symbols) (range : Int × Int) (name : Text) (offset : Int), lookupSymbol symbols name = none →
    resolveOperand symbols range (.symbol name offset) = some (.pending name offset)) ∧
  (∀ (symbols : Symbols) (es : List Emitted) (bs : List Byte), passTwo symbols es = .ok bs →
    List.Forall₂ (fun e b => resolveEmitted symbols e = .ok b) es bs) ∧
  (∀ (line line' : Nat) (before after : List Text) (st st' : AsmState), passOne line before asmStart = .ok st →
    passOne line' after st = .ok st' →
    ∀ (range : Int × Int) (name : Text) (offset : Int) (v : Emitted),
      resolveOperand st.symbols range (.symbol name offset) = some v →
      resolveEmitted st'.symbols v = resolveEmitted st'.symbols (.pending name offset))

/-- 30_encoding.md R102: a symbol unbound after every line is a fatal error that names it; otherwise every pending
reference is replaced: the program's bytes are, in order, those the emitted values have with the complete table. -/
def Obligations.UnboundSymbolIsUndefinedReference : Prop :=
  ∀ (base : Fin 2) (lines : List Text) (st : AsmState), passOne base.val lines asmStart = .ok st →
    ((∃ name offset, .pending name offset ∈ st.emitted ∧ lookupSymbol st.symbols name = none) →
      ∃ name offset, .pending name offset ∈ st.emitted ∧ lookupSymbol st.symbols name = none ∧
        assemble base lines = .error (.undefinedReference name)) ∧
    ((∀ name offset, .pending name offset ∈ st.emitted → lookupSymbol st.symbols name ≠ none) →
      ∃ p, assemble base lines = .ok p ∧ p.bytes.length = st.emitted.length) ∧
    (∀ p, assemble base lines = .ok p →
      List.Forall₂ (fun e v => ∃ b : Byte, resolveEmitted st.symbols e = .ok b ∧ v = (b.toNat : Int))
        st.emitted p.bytes)

/-- 30_encoding.md R103: a line that emits maps its first byte's address to its number and text; a line that emits nothing
has no entry; and every entry of the output names a line of the source. That a byte is emitted below 256 only is the
spec's own decision D16 (log entry 18), and that the first line has the number `base`, 0 or 1, is D11 (log entry 19). -/
def Obligations.SourceMapRecordsEmittingLines : Prop :=
  (∀ (line : Nat) (text : Text) (st st' : AsmState), assembleLine line text st = .ok st' →
    (st.emitted.length < st'.emitted.length →
      st.emitted.length < 256 ∧
      st'.sourceMap = st.sourceMap ++ [(BitVec.ofNat 8 st.emitted.length, ⟨line, text⟩)]) ∧
    (st'.emitted.length = st.emitted.length → st'.sourceMap = st.sourceMap) ∧
    st.emitted.length ≤ st'.emitted.length) ∧
  (∀ (base : Fin 2) (lines : List Text) (p : Program), assemble base lines = .ok p →
    ∀ e ∈ p.sourceMap, ∃ i, lines[i]? = some e.2.sourceText ∧ e.2.lineNumber = base.val + i)

/-- 30_encoding.md section 6 (Symbols): a label is bound to the output address before its own line's operands, at most
once; the predefined names count as bound (the spec's own inference); and a new label at output address 256 or beyond is a
range error (the spec's own decision D16, log entry 18; that a second binding is reported first is log entry 10). -/
def Obligations.LabelsBindOnce : Prop :=
  (lookupSymbol asmStart.symbols ['@', 'I', 'N'] = some 253#8 ∧
    lookupSymbol asmStart.symbols ['@', 'O', 'U', 'T'] = some 254#8 ∧
    lookupSymbol asmStart.symbols ['@', 'H', 'A', 'L', 'T'] = some 255#8) ∧
  (∀ (line : Nat) (text : Text) (st : AsmState) (name : Text) (body : Option (Text × List SourceOperand)),
    parseLine text = some ⟨some name, body⟩ →
    (∀ a, lookupSymbol st.symbols name = some a →
      assembleLine line text st = .error (.duplicateLabel line text name)) ∧
    (lookupSymbol st.symbols name = none → st.emitted.length < 256 →
      ∃ bound : AsmState, assembleLine line text st = assembleBody line text bound body ∧
        bound.emitted = st.emitted ∧ bound.sourceMap = st.sourceMap ∧
        lookupSymbol bound.symbols name = some (BitVec.ofNat 8 st.emitted.length) ∧
        ∀ other, other ≠ name → lookupSymbol bound.symbols other = lookupSymbol st.symbols other) ∧
    (lookupSymbol st.symbols name = none → 256 ≤ st.emitted.length →
      assembleLine line text st = .error (.rangeError line text)))

/-- 30_encoding.md section 6 (names): any name but `subleq` and `.data` is a fatal error naming it, whatever its operands.
Case sensitivity is the spec's own decision D12. -/
def Obligations.OtherNamesAreUnknownInstructions : Prop :=
  (∀ (line : Nat) (text : Text) (st : AsmState) (name : Text) (ops : List SourceOperand),
    name ≠ nameSubleq → name ≠ nameData →
    assembleBody line text st (some (name, ops)) = .error (.unknownInstruction line text name)) ∧
  ['S', 'U', 'B', 'L', 'E', 'Q'] ≠ nameSubleq

/-- 30_encoding.md section 5: a line of whitespace alone, or of whitespace and a comment, is empty, and assembling it
changes nothing. What whitespace is, is the spec's own decision D13. -/
def Obligations.BlankAndCommentLinesEmitNothing : Prop :=
  ∀ (blanks rest : Text), blanks.all isBlankChar = true →
    parseLine blanks = some ⟨none, none⟩ ∧ parseLine (blanks ++ ';' :: rest) = some ⟨none, none⟩ ∧
    ∀ (line : Nat) (st : AsmState), assembleLine line blanks st = .ok st ∧
      assembleLine line (blanks ++ ';' :: rest) st = .ok st

/-- 30_encoding.md section 9 (the examples of the argument-count rule, with 90_conflicts.md C3): the argument-count examples, the one without spaces after its commas a
syntax error; none of them makes a program. That the errors carry the requirement and the count is the model's choice for `.data`, and
how they are written is for both (log entry 13). -/
def Obligations.ArgumentCountExamplesFail : Prop :=
  ∀ (line : Nat) (st : AsmState) (base : Fin 2),
    assembleLine line "subleq 1".toList st = .error (.argumentCount line "subleq 1".toList [2, 3] 1) ∧
    assembleLine line "subleq 1, 2, 3, 4".toList st = .error (.argumentCount line "subleq 1, 2, 3, 4".toList [2, 3] 4) ∧
    assembleLine line "subleq 1,2,3,4".toList st = .error (.syntaxError line "subleq 1,2,3,4".toList) ∧
    assembleLine line ".data".toList st = .error (.argumentCount line ".data".toList [1] 0) ∧
    assembleLine line ".data 1, 2".toList st = .error (.argumentCount line ".data 1, 2".toList [1] 2) ∧
    (∀ text ∈ ["subleq 1".toList, "subleq 1, 2, 3, 4".toList, "subleq 1,2,3,4".toList, ".data".toList, ".data 1, 2".toList],
      ∀ (before after : List Text) (p : Program), assemble base (before ++ text :: after) ≠ .ok p)

/-- 30_encoding.md section 5 (comma separation): after an operand only three texts are read: a comma, whitespace and another
operand; optional whitespace and the line's end; optional whitespace and a comment. Every other text is a syntax error,
wherever the operand stands, so `.data 1 2`, `subleq 1/2` and `subleq 1, ` are. The lexical details are the spec's own
decisions D13 and D14 (log entry 11). -/
def Obligations.CommaSeparationIsMandatory : Prop :=
  -- the first operand, after whitespace; what follows it is read by `operandsAfter`
  (∀ (blanks t rest : Text) (e : SourceOperand), blanks ≠ [] → blanks.all isBlankChar = true →
    parseExpr t = some (e, rest) → parseOperands (blanks ++ t) = (operandsAfter rest).map (e :: ·)) ∧
  -- a comma and whitespace separate two operands
  (∀ (blanks t rest : Text) (e : SourceOperand), blanks ≠ [] → blanks.all isBlankChar = true →
    parseExpr t = some (e, rest) → operandsAfter (',' :: blanks ++ t) = (operandsAfter rest).map (e :: ·)) ∧
  -- the line's end or a comment ends the operands
  (∀ (blanks comment : Text), blanks.all isBlankChar = true →
    operandsAfter blanks = some [] ∧ operandsAfter (blanks ++ ';' :: comment) = some []) ∧
  -- nothing else
  (∀ t : Text,
    (∀ blanks rest : Text, blanks ≠ [] → blanks.all isBlankChar = true → t ≠ ',' :: blanks ++ rest) →
    (∀ blanks comment : Text, blanks.all isBlankChar = true → t ≠ blanks ∧ t ≠ blanks ++ ';' :: comment) →
    operandsAfter t = none) ∧
  -- and after the comma and whitespace, nothing but an operand
  (∀ blanks t : Text, blanks ≠ [] → blanks.all isBlankChar = true → (t.head?.all (fun c => !isBlankChar c)) = true →
    parseExpr t = none → operandsAfter (',' :: blanks ++ t) = none) ∧
  parseLine ".data 1 2".toList = none ∧ parseLine "subleq 1,2".toList = none ∧
  parseLine "subleq @a , @b".toList = none ∧ parseLine "subleq 1/2".toList = none ∧
  parseLine "subleq 1,".toList = none ∧ parseLine "subleq 1, ".toList = none

/-- 30_encoding.md section 9 (Errors): the first error wins: once a line fails, no later line matters and no program is
made. -/
def Obligations.FirstAssemblyErrorWins : Prop :=
  ∀ (base : Fin 2) (before after : List Text) (e : AsmError), passOne base.val before asmStart = .error e →
    assemble base (before ++ after) = .error e

/-- 30_encoding.md sections 4 and 9, 60_exceptions.md section 1: every program the assembler makes is admitted, so a core
can be constructed from it whatever the callbacks, and the core's cells are the program's bytes. The limit of 256 is the
spec's own decision D16 (log entry 18). -/
def Obligations.AssembledProgramsConstruct : Prop :=
  ∀ (base : Fin 2) (lines : List Text) (p : Program), assemble base lines = .ok p →
    p.bytes.length ≤ 256 ∧
    ∀ (cb : Callbacks) (replies : List Byte), ∃ s, construct p cb replies = .next s ∧
      ∀ A : Nat, A < 256 → ((s.mem.read A).toNat : Int) = p.bytes.getD A 0

/-- 30_encoding.md section 9 (output map and limits): a `subleq` or a `.data` with an admitted number of operands that would
emit a byte at output address 256 or beyond is a range error, whatever the operands. The spec's own decision D16 (log
entry 18). -/
def Obligations.EmissionBeyondMemoryIsRangeError : Prop :=
  ∀ (line : Nat) (text : Text) (st : AsmState) (ops : List SourceOperand),
    (ops.length = 2 ∨ ops.length = 3 → 256 < st.emitted.length + 3 →
      assembleBody line text st (some (nameSubleq, ops)) = .error (.rangeError line text)) ∧
    (ops.length = 1 → 256 ≤ st.emitted.length →
      assembleBody line text st (some (nameData, ops)) = .error (.rangeError line text))

end
end

