-- ==== Sys2Proof/Laws/Assembler.lean ====
section
/-! SUPPORT. One lemma per shared operation of the assembler: what its success says. -/

namespace Sys2Proof.Machine

/-- The counts `subleq` takes, as a disjunction (R96). -/
@[simp] theorem mem_subleqOperandCounts (n : Nat) : n ∈ subleqOperandCounts ↔ n = 2 ∨ n = 3 := by
  simp [subleqOperandCounts]

/-- The count `.data` takes (R98). -/
@[simp] theorem mem_dataOperandCounts (n : Nat) : n ∈ dataOperandCounts ↔ n = 1 := by
  simp [dataOperandCounts]

/-- A successful emission appends the values and one source-map entry, and stays within the image (30_encoding.md
R97, R103, R104). -/
theorem emitValues_ok {line : Nat} {text : Text} {st st' : AsmState} {vs : List Emitted}
    (h : emitValues line text st vs = .ok st') :
    st.emitted.length + vs.length ≤ Config.memSize ∧ st'.emitted = st.emitted ++ vs ∧ st'.symbols = st.symbols ∧
      st'.sourceMap = st.sourceMap ++ [(BitVec.ofNat 8 st.emitted.length, ⟨line, text⟩)] := by
  unfold emitValues at h
  split at h
  · next hl => cases h; exact ⟨hl, rfl, rfl, rfl⟩
  · cases h

/-- A successful label binding leaves the state as it was, or adds one new name at the current output address
(R95, R104). -/
theorem bindLabel_ok {line : Nat} {text : Text} {st st' : AsmState} {label : Option Text}
    (h : bindLabel line text st label = .ok st') :
    (label = none ∧ st' = st) ∨
      ∃ name, label = some name ∧ lookupSymbol st.symbols name = none ∧ st.emitted.length < Config.memSize ∧
        st' = { st with symbols := st.symbols ++ [(name, BitVec.ofNat 8 st.emitted.length)] } := by
  cases label with
  | none => cases h; exact .inl ⟨rfl, rfl⟩
  | some name =>
    simp only [bindLabel] at h
    split at h
    · cases h
    · next hn =>
      split at h
      · next hl => cases h; exact .inr ⟨name, rfl, hn, hl, rfl⟩
      · cases h

/-- A successful body emits nothing, or emits the values of its instruction: three for `subleq`, one for `.data`
(R97, R98). -/
theorem assembleBody_ok {line : Nat} {text : Text} {st st' : AsmState} {body : Option (Text × List SourceOperand)}
    (h : assembleBody line text st body = .ok st') :
    (body = none ∧ st' = st) ∨
      ∃ name ops vs, body = some (name, ops) ∧ emitValues line text st vs = .ok st' ∧
        ((name = nameSubleq ∧ assembleSubleq line text st.emitted.length st.symbols ops = .ok vs) ∨
          (name = nameData ∧ assembleData line text st.symbols ops = .ok vs)) := by
  cases body with
  | none => cases h; exact .inl ⟨rfl, rfl⟩
  | some b =>
    obtain ⟨name, ops⟩ := b
    simp only [assembleBody] at h
    split at h
    · next hn =>
      split at h
      · cases h
      · next vs hvs => exact .inr ⟨name, ops, vs, rfl, h, .inl ⟨hn, hvs⟩⟩
    · split at h
      · next hn =>
        split at h
        · cases h
        · next vs hvs => exact .inr ⟨name, ops, vs, rfl, h, .inr ⟨hn, hvs⟩⟩
      · cases h

/-- A successful line parses, binds its label and assembles its body (R91, R95). -/
theorem assembleLine_ok {line : Nat} {text : Text} {st st' : AsmState} (h : assembleLine line text st = .ok st') :
    ∃ p bound, parseLine text = some p ∧ bindLabel line text st p.label = .ok bound ∧
      assembleBody line text bound p.body = .ok st' := by
  unfold assembleLine at h
  split at h
  · cases h
  · next p hp =>
    split at h
    · cases h
    · next bound hb => exact ⟨p, bound, hp, hb, h⟩

/-- As many values as operands. -/
theorem resolveOperands_length {symbols : Symbols} {range : Int × Int} {ops : List SourceOperand} {vs : List Emitted}
    (h : resolveOperands symbols range ops = some vs) : vs.length = ops.length := by
  induction ops generalizing vs with
  | nil => cases h; rfl
  | cons e es ih =>
    simp only [resolveOperands] at h
    split at h
    · cases h
    · next v _ =>
      simp only [Option.map_eq_some_iff] at h
      obtain ⟨ws, hws, rfl⟩ := h
      simp [ih hws]

/-- `subleq` emits exactly three values (R97). -/
theorem assembleSubleq_length {line p : Nat} {text : Text} {symbols : Symbols} {ops : List SourceOperand}
    {vs : List Emitted} (h : assembleSubleq line text p symbols ops = .ok vs) : vs.length = 3 := by
  unfold assembleSubleq at h
  split at h
  · next hc =>
    rw [mem_subleqOperandCounts] at hc
    split at h
    · cases h
    · next ws hws =>
      have hl := resolveOperands_length hws
      cases h
      split
      · simp; omega
      · omega
  · cases h

/-- `.data` emits exactly one value (R98). -/
theorem assembleData_length {line : Nat} {text : Text} {symbols : Symbols} {ops : List SourceOperand}
    {vs : List Emitted} (h : assembleData line text symbols ops = .ok vs) : vs.length = 1 := by
  unfold assembleData at h
  split at h
  · next hc =>
    rw [mem_dataOperandCounts] at hc
    split at h
    · cases h
    · next ws hws => cases h; rw [resolveOperands_length hws, hc]
  · cases h

/-- A name bound in a table stays bound to the same address in a longer one (R101). -/
theorem lookupSymbol_append {symbols more : Symbols} {name : Text} {a : Addr} (h : lookupSymbol symbols name = some a) :
    lookupSymbol (symbols ++ more) name = some a := by
  induction symbols with
  | nil => cases h
  | cons e rest ih =>
    obtain ⟨n, b⟩ := e
    simp only [lookupSymbol, List.cons_append] at h ⊢
    split at h
    · next hn => simpa [hn] using h
    · next hn => simpa [hn] using ih h

/-- Pass two yields one byte for each emitted value (R101). -/
theorem passTwo_length {symbols : Symbols} {es : List Emitted} {bs : List Byte} (h : passTwo symbols es = .ok bs) :
    bs.length = es.length := by
  induction es generalizing bs with
  | nil => cases h; rfl
  | cons e es ih =>
    simp only [passTwo] at h
    split at h
    · cases h
    · split at h
      · cases h
      · next vs hvs => cases h; simp [ih hvs]

end Sys2Proof.Machine
end

