-- ==== Sys2Proof/Laws/Grammar.lean ====
section
/-! SUPPORT. What the line grammar's readers do: each consumes what it reads, and the bound on the number of operands never
decides an answer. -/

namespace Sys2Proof.Machine

/-- The rest of a span is no longer than the text. -/
theorem spanText_rest_length (p : Char → Bool) (t : Text) : (spanText p t).2.length ≤ t.length := by
  induction t with
  | nil => simp [spanText]
  | cons c cs ih =>
    simp only [spanText]
    split
    · simp only [List.length_cons]; omega
    · simp

/-- Leading whitespace is skipped (30_encoding.md R91). -/
theorem skipBlanks_append {blanks : Text} (t : Text) (h : blanks.all isBlankChar = true) :
    skipBlanks (blanks ++ t) = skipBlanks t := by
  induction blanks with
  | nil => rfl
  | cons c cs ih =>
    simp only [List.all_cons, Bool.and_eq_true] at h
    rw [← ih h.2]
    simp only [skipBlanks, List.cons_append, spanText, h.1, if_true]

/-- A text is some whitespace and what skipping leaves. -/
theorem eq_blanks_append_skipBlanks (t : Text) : ∃ blanks, blanks.all isBlankChar = true ∧ t = blanks ++ skipBlanks t := by
  induction t with
  | nil => exact ⟨[], rfl, rfl⟩
  | cons c cs ih =>
    obtain ⟨blanks, hb, he⟩ := ih
    by_cases hc : isBlankChar c = true
    · refine ⟨c :: blanks, by rw [List.all_cons, hc, hb]; rfl, ?_⟩
      rw [show skipBlanks (c :: cs) = skipBlanks cs by simp only [skipBlanks, spanText, hc, if_true], List.cons_append, ← he]
    · exact ⟨[], rfl, by simp [skipBlanks, spanText, hc]⟩

/-- Required whitespace is there exactly as a non-empty run of it, and is consumed. -/
theorem requireBlanks_append {blanks : Text} (t : Text) (hne : blanks ≠ []) (h : blanks.all isBlankChar = true) :
    requireBlanks (blanks ++ t) = some (skipBlanks t) := by
  obtain ⟨d, ds, rfl⟩ := List.exists_cons_of_ne_nil hne
  simp only [List.all_cons, Bool.and_eq_true] at h
  simp [requireBlanks, h.1, skipBlanks_append t h.2]

theorem requireBlanks_shorter {t u : Text} (h : requireBlanks t = some u) : u.length < t.length := by
  cases t with
  | nil => cases h
  | cons c cs =>
    simp only [requireBlanks] at h
    split at h
    · cases h
      have := spanText_rest_length isBlankChar cs
      simp only [skipBlanks, List.length_cons]
      omega
    · cases h

theorem parseDigits_shorter {t rest : Text} {n : Nat} (h : parseDigits t = some (n, rest)) : rest.length < t.length := by
  cases t with
  | nil => cases h
  | cons d ds =>
    simp only [parseDigits, spanText] at h
    split at h
    · cases h
    · next _ heq =>
      by_cases hd : isDigitChar d = true
      · simp only [hd, if_true] at heq
        cases heq
        cases h
        have := spanText_rest_length isDigitChar ds
        simp only [List.length_cons]
        omega
      · simp [hd] at heq

theorem parseIdentifier_shorter {t name rest : Text} (h : parseIdentifier t = some (name, rest)) :
    rest.length < t.length := by
  cases t with
  | nil => cases h
  | cons c cs =>
    simp only [parseIdentifier] at h
    split at h
    · cases h
      have := spanText_rest_length isIdentChar cs
      simp only [List.length_cons]
      omega
    · cases h

theorem parseOffset_rest_length {t rest : Text} {n : Int} (h : parseOffset t = some (n, rest)) :
    rest.length ≤ t.length := by
  unfold parseOffset at h
  split at h
  · obtain ⟨⟨m, r⟩, hd, he⟩ := Option.map_eq_some_iff.1 h
    cases he
    exact Nat.le_succ_of_le (Nat.le_of_lt (parseDigits_shorter hd))
  · obtain ⟨⟨m, r⟩, hd, he⟩ := Option.map_eq_some_iff.1 h
    cases he
    exact Nat.le_succ_of_le (Nat.le_of_lt (parseDigits_shorter hd))
  · cases h; exact Nat.le_refl _

/-- An operand read takes at least one character (R91). -/
theorem parseExpr_shorter {t rest : Text} {e : SourceOperand} (h : parseExpr t = some (e, rest)) :
    rest.length < t.length := by
  unfold parseExpr at h
  split at h
  · split at h
    · cases h
    · next name more hi =>
      obtain ⟨⟨m, r⟩, ho, he⟩ := Option.map_eq_some_iff.1 h
      cases he
      have h1 := parseIdentifier_shorter hi
      have h2 := parseOffset_rest_length ho
      simp only [List.length_cons] at *
      omega
  · obtain ⟨⟨m, r⟩, hd, he⟩ := Option.map_eq_some_iff.1 h
    cases he
    exact Nat.lt_succ_of_lt (parseDigits_shorter hd)
  · obtain ⟨⟨m, r⟩, hd, he⟩ := Option.map_eq_some_iff.1 h
    cases he
    exact parseDigits_shorter hd

/-- Any bound above the text's length gives the same operands, so the bound never decides an answer. -/
theorem parseMoreOperands_fuel (n m : Nat) (t : Text) (hn : t.length < n) (hm : t.length < m) :
    parseMoreOperands n t = parseMoreOperands m t := by
  induction n generalizing m t with
  | zero => omega
  | succ n ih =>
    obtain ⟨m, rfl⟩ : ∃ k, m = k + 1 := ⟨m - 1, by omega⟩
    by_cases hc : ∃ u, t = ',' :: u
    · obtain ⟨u, rfl⟩ := hc
      simp only [List.length_cons] at hn hm
      simp only [parseMoreOperands]
      cases hr : requireBlanks u with
      | none => rfl
      | some v =>
        have hv := requireBlanks_shorter hr
        cases he : parseExpr v with
        | none => simp only [he]
        | some p =>
          have hp := parseExpr_shorter (e := p.1) (rest := p.2) he
          simp only [he]
          rw [ih m p.2 (by omega) (by omega)]
    · rw [parseMoreOperands, parseMoreOperands]
      · exact fun u h => hc ⟨u, h⟩
      · exact fun u h => hc ⟨u, h⟩

end Sys2Proof.Machine
end

