-- ==== Sys2Proof/Laws/Memory.lean ====
section
/-! SUPPORT. What the memory list and the address set do: reads after writes, and that every operation keeps the
canonical form. -/

namespace Sys2Proof.Machine

/-- The number of cells, as a numeral for arithmetic. -/
theorem memSize_eq : Config.memSize = 256 := rfl

/-! ### Reads after writes -/

/-- Below the first address of a canonical list, every cell reads the unlisted byte. -/
theorem Memory.read_below {m : Memory} {lo a : Nat} (h : m.wfFrom lo = true) (ha : a < lo) :
    m.read a = Config.unlistedByte := by
  induction m generalizing lo with
  | nil => rfl
  | cons e m ih =>
    obtain ⟨k, v⟩ := e
    simp only [Memory.wfFrom, Bool.and_eq_true, decide_eq_true_eq] at h
    obtain ⟨⟨⟨hlo, -⟩, -⟩, hm⟩ := h
    simp only [Memory.read, show ¬k = a by omega, if_false]
    exact ih hm (by omega)

/-- A write leaves every other cell alone, canonical or not. -/
theorem Memory.read_write_ne (m : Memory) {a b : Nat} (v : Byte) (h : b ≠ a) :
    (m.write a v).read b = m.read b := by
  induction m with
  | nil => unfold Memory.write; split <;> simp [Memory.read, h.symm]
  | cons e m ih =>
    obtain ⟨k, w⟩ := e
    simp only [Memory.write]
    split
    · simp [Memory.read, ih]
    · split
      · next hk => split <;> simp [Memory.read, hk, h.symm]
      · split <;> simp [Memory.read, h.symm]

/-- A read of the cell just written gives the value written. -/
theorem Memory.read_write_same {m : Memory} {lo : Nat} (h : m.wfFrom lo = true) (a : Nat) (v : Byte) :
    (m.write a v).read a = v := by
  induction m generalizing lo with
  | nil => unfold Memory.write; split <;> simp_all [Memory.read]
  | cons e m ih =>
    obtain ⟨k, w⟩ := e
    simp only [Memory.wfFrom, Bool.and_eq_true, decide_eq_true_eq] at h
    obtain ⟨-, hm⟩ := h
    simp only [Memory.write]
    split
    · next hk => simp only [Memory.read, show ¬k = a by omega, if_false]; exact ih hm
    · split
      · next hk =>
        split
        · next hv => rw [hv]; exact Memory.read_below hm (by omega)
        · simp [Memory.read]
      · split
        · next hv =>
          simp only [Memory.read, show ¬k = a by omega, if_false]
          rw [hv]; exact Memory.read_below hm (by omega)
        · simp [Memory.read]

/-- The two laws together, for a canonical memory. -/
theorem Memory.read_write {m : Memory} (h : m.wf = true) (a b : Nat) (v : Byte) :
    (m.write a v).read b = if b = a then v else m.read b := by
  split
  · next hb => rw [hb]; exact Memory.read_write_same h a v
  · next hb => exact Memory.read_write_ne m v hb

/-! ### The canonical form is kept -/

theorem Memory.wfFrom_mono {m : Memory} {lo lo' : Nat} (h : m.wfFrom lo = true) (hl : lo' ≤ lo) :
    m.wfFrom lo' = true := by
  cases m with
  | nil => rfl
  | cons e m =>
    obtain ⟨k, v⟩ := e
    simp only [Memory.wfFrom, Bool.and_eq_true, decide_eq_true_eq] at h ⊢
    exact ⟨⟨⟨by omega, h.1.1.2⟩, h.1.2⟩, h.2⟩

theorem Memory.wfFrom_write {m : Memory} {lo : Nat} (h : m.wfFrom lo = true) {a : Nat} (hlo : lo ≤ a)
    (ha : a < Config.memSize) (v : Byte) : (m.write a v).wfFrom lo = true := by
  induction m generalizing lo with
  | nil => unfold Memory.write; split <;> simp_all [Memory.wfFrom]
  | cons e m ih =>
    obtain ⟨k, w⟩ := e
    have hm := h
    simp only [Memory.wfFrom, Bool.and_eq_true, decide_eq_true_eq] at hm
    obtain ⟨⟨⟨hk0, hk⟩, hw⟩, ht⟩ := hm
    simp only [Memory.write]
    split
    · next hka =>
      simp only [Memory.wfFrom, Bool.and_eq_true, decide_eq_true_eq]
      exact ⟨⟨⟨hk0, hk⟩, hw⟩, ih ht (by omega)⟩
    · split
      · next hka =>
        split
        · exact Memory.wfFrom_mono ht (by omega)
        · next hv =>
          simp only [Memory.wfFrom, Bool.and_eq_true, decide_eq_true_eq]
          exact ⟨⟨⟨hlo, ha⟩, hv⟩, by rw [← hka]; exact ht⟩
      · split
        · exact h
        · next hv =>
          simp only [Memory.wfFrom, Bool.and_eq_true, decide_eq_true_eq]
          exact ⟨⟨⟨hlo, ha⟩, hv⟩, ⟨⟨by omega, hk⟩, hw⟩, ht⟩

/-- Writing any cell of the address space keeps the canonical form. -/
theorem Memory.wf_write {m : Memory} (h : m.wf = true) {a : Nat} (ha : a < Config.memSize) (v : Byte) :
    (m.write a v).wf = true :=
  Memory.wfFrom_write h (Nat.zero_le a) ha v

theorem Memory.wfFrom_ofBytes (at_ : Nat) (bs : List Byte) (h : at_ + bs.length ≤ Config.memSize) :
    (Memory.ofBytes at_ bs).wfFrom at_ = true := by
  induction bs generalizing at_ with
  | nil => rfl
  | cons b bs ih =>
    simp only [List.length_cons] at h
    have ht := ih (at_ + 1) (by omega)
    unfold Memory.ofBytes
    split
    · exact Memory.wfFrom_mono ht (by omega)
    · next hb =>
      simp only [Memory.wfFrom, Bool.and_eq_true, decide_eq_true_eq]
      exact ⟨⟨⟨Nat.le_refl _, by omega⟩, hb⟩, ht⟩

/-- The memory of an image of at most 256 bytes has the canonical form. -/
theorem Memory.wf_ofBytes {bs : List Byte} (h : bs.length ≤ Config.memSize) : (Memory.ofBytes 0 bs).wf = true :=
  Memory.wfFrom_ofBytes 0 bs (by omega)

/-- A cell of a loaded memory: the image's byte, or the unlisted byte outside the image. -/
theorem Memory.read_ofBytes (at_ : Nat) (bs : List Byte) (i : Nat) :
    (Memory.ofBytes at_ bs).read (at_ + i) = bs.getD i Config.unlistedByte := by
  induction bs generalizing at_ i with
  | nil => simp [Memory.ofBytes, Memory.read]
  | cons b bs ih =>
    unfold Memory.ofBytes
    cases i with
    | zero =>
      split
      · next hb =>
        have below : ∀ (n : Nat) (cs : List Byte), n ≥ at_ + 1 →
            (Memory.ofBytes n cs).read at_ = Config.unlistedByte := by
          intro n cs
          induction cs generalizing n with
          | nil => intro _; rfl
          | cons c cs ihc =>
            intro hn
            unfold Memory.ofBytes
            split
            · exact ihc (n + 1) (by omega)
            · simp only [Memory.read, show ¬n = at_ by omega, if_false]; exact ihc (n + 1) (by omega)
        simpa [hb] using below (at_ + 1) bs (Nat.le_refl _)
      · simp [Memory.read]
    | succ i =>
      have := ih (at_ + 1) i
      rw [show at_ + 1 + i = at_ + (i + 1) by omega] at this
      split
      · simpa using this
      · simpa [Memory.read] using this

/-- Two canonical memories that read the same everywhere are the same list. -/
theorem Memory.eq_of_read_eq {m n : Memory} {lo : Nat} (hm : m.wfFrom lo = true) (hn : n.wfFrom lo = true)
    (h : ∀ a, m.read a = n.read a) : m = n := by
  induction m generalizing n lo with
  | nil =>
    cases n with
    | nil => rfl
    | cons e n =>
      obtain ⟨k, v⟩ := e
      simp only [Memory.wfFrom, Bool.and_eq_true, decide_eq_true_eq] at hn
      exact absurd (by simpa [Memory.read] using (h k).symm) hn.1.2
  | cons e m ih =>
    obtain ⟨k, v⟩ := e
    have hm' := hm
    simp only [Memory.wfFrom, Bool.and_eq_true, decide_eq_true_eq] at hm'
    cases n with
    | nil => exact absurd (by simpa [Memory.read] using h k) hm'.1.2
    | cons f n =>
      obtain ⟨l, w⟩ := f
      have hn' := hn
      simp only [Memory.wfFrom, Bool.and_eq_true, decide_eq_true_eq] at hn'
      have hkl : k = l := by
        rcases Nat.lt_trichotomy k l with hlt | heq | hgt
        · have hk := h k
          simp only [Memory.read, show ¬l = k by omega, if_true, if_false] at hk
          exact absurd (hk.trans (Memory.read_below hn'.2 (by omega))) hm'.1.2
        · exact heq
        · have hl := h l
          simp only [Memory.read, show ¬k = l by omega, if_true, if_false] at hl
          exact absurd (hl.symm.trans (Memory.read_below hm'.2 (by omega))) hn'.1.2
      subst hkl
      have hvw : v = w := by simpa [Memory.read] using h k
      subst hvw
      have htail : m = n := ih hm'.2 hn'.2 (fun a => by
        by_cases ha : k = a
        · rw [← ha, Memory.read_below hm'.2 (by omega), Memory.read_below hn'.2 (by omega)]
        · simpa [Memory.read, ha] using h a)
      rw [htail]

/-! ### The accessed set -/

/-- The members after an insertion: the new address and the old members (10_state.md R31). -/
theorem AddrSet.mem_insert (s : AddrSet) (a x : Addr) : x ∈ s.insert a ↔ x = a ∨ x ∈ s := by
  induction s with
  | nil => simp [AddrSet.insert]
  | cons y s ih =>
    simp only [AddrSet.insert]
    split
    · simp only [List.mem_cons, ih]; tauto
    · split
      · next h => simp only [List.mem_cons, h]; tauto
      · simp only [List.mem_cons]

theorem AddrSet.wfFrom_insert {s : AddrSet} {lo : Nat} (h : s.wfFrom lo = true) {a : Addr} (ha : lo ≤ a.toNat) :
    (s.insert a).wfFrom lo = true := by
  induction s generalizing lo with
  | nil => simp [AddrSet.insert, AddrSet.wfFrom, ha]
  | cons y s ih =>
    have hs := h
    simp only [AddrSet.wfFrom, Bool.and_eq_true, decide_eq_true_eq] at hs
    simp only [AddrSet.insert]
    split
    · next hy =>
      have hlt : y.toNat < a.toNat := hy
      simp only [AddrSet.wfFrom, Bool.and_eq_true, decide_eq_true_eq]
      exact ⟨hs.1, ih hs.2 (by omega)⟩
    · split
      · exact h
      · next hn hne =>
        have hle : a.toNat ≤ y.toNat := by
          have : ¬y.toNat < a.toNat := hn
          omega
        have hneq : y.toNat ≠ a.toNat := fun e => hne (BitVec.eq_of_toNat_eq e)
        simp only [AddrSet.wfFrom, Bool.and_eq_true, decide_eq_true_eq]
        exact ⟨ha, by omega, hs.2⟩

/-- Adding an address keeps the canonical form. -/
theorem AddrSet.wf_insert {s : AddrSet} (h : s.wf = true) (a : Addr) : (s.insert a).wf = true :=
  AddrSet.wfFrom_insert h (Nat.zero_le _)

end Sys2Proof.Machine
end

