-- ==== Sys2Proof/Laws/State.lean ====
section
/-! SUPPORT. One lemma per field per basic update of the state, so that no proof unfolds a record update. -/

namespace Sys2Proof.Machine

/-! ### setIp -/

@[simp] theorem State.setIp_mem (s : State) (t : Addr) : (s.setIp t).mem = s.mem := rfl
@[simp] theorem State.setIp_ip (s : State) (t : Addr) : (s.setIp t).ip = t := rfl
@[simp] theorem State.setIp_cyclesExecuted (s : State) (t : Addr) : (s.setIp t).cyclesExecuted = s.cyclesExecuted := rfl
@[simp] theorem State.setIp_accessed (s : State) (t : Addr) : (s.setIp t).accessed = s.accessed := rfl
@[simp] theorem State.setIp_sourceMap (s : State) (t : Addr) : (s.setIp t).sourceMap = s.sourceMap := rfl
@[simp] theorem State.setIp_callbacks (s : State) (t : Addr) : (s.setIp t).callbacks = s.callbacks := rfl
@[simp] theorem State.setIp_inputQueue (s : State) (t : Addr) : (s.setIp t).inputQueue = s.inputQueue := rfl
@[simp] theorem State.setIp_inputCount (s : State) (t : Addr) : (s.setIp t).inputCount = s.inputCount := rfl
@[simp] theorem State.setIp_events (s : State) (t : Addr) : (s.setIp t).events = s.events := rfl

/-! ### store -/

@[simp] theorem State.store_mem (s : State) (A : Addr) (v : Byte) : (s.store A v).mem = s.mem.write A.toNat v := rfl
@[simp] theorem State.store_ip (s : State) (A : Addr) (v : Byte) : (s.store A v).ip = s.ip := rfl
@[simp] theorem State.store_cyclesExecuted (s : State) (A : Addr) (v : Byte) : (s.store A v).cyclesExecuted = s.cyclesExecuted := rfl
@[simp] theorem State.store_accessed (s : State) (A : Addr) (v : Byte) : (s.store A v).accessed = s.accessed := rfl
@[simp] theorem State.store_sourceMap (s : State) (A : Addr) (v : Byte) : (s.store A v).sourceMap = s.sourceMap := rfl
@[simp] theorem State.store_callbacks (s : State) (A : Addr) (v : Byte) : (s.store A v).callbacks = s.callbacks := rfl
@[simp] theorem State.store_inputQueue (s : State) (A : Addr) (v : Byte) : (s.store A v).inputQueue = s.inputQueue := rfl
@[simp] theorem State.store_inputCount (s : State) (A : Addr) (v : Byte) : (s.store A v).inputCount = s.inputCount := rfl
@[simp] theorem State.store_events (s : State) (A : Addr) (v : Byte) : (s.store A v).events = s.events := rfl

/-! ### touch -/

@[simp] theorem State.touch_mem (s : State) (A : Addr) : (s.touch A).mem = s.mem := rfl
@[simp] theorem State.touch_ip (s : State) (A : Addr) : (s.touch A).ip = s.ip := rfl
@[simp] theorem State.touch_cyclesExecuted (s : State) (A : Addr) : (s.touch A).cyclesExecuted = s.cyclesExecuted := rfl
@[simp] theorem State.touch_accessed (s : State) (A : Addr) : (s.touch A).accessed = s.accessed.insert A := rfl
@[simp] theorem State.touch_sourceMap (s : State) (A : Addr) : (s.touch A).sourceMap = s.sourceMap := rfl
@[simp] theorem State.touch_callbacks (s : State) (A : Addr) : (s.touch A).callbacks = s.callbacks := rfl
@[simp] theorem State.touch_inputQueue (s : State) (A : Addr) : (s.touch A).inputQueue = s.inputQueue := rfl
@[simp] theorem State.touch_inputCount (s : State) (A : Addr) : (s.touch A).inputCount = s.inputCount := rfl
@[simp] theorem State.touch_events (s : State) (A : Addr) : (s.touch A).events = s.events := rfl

/-! ### emit -/

@[simp] theorem State.emit_mem (s : State) (e : Event) : (s.emit e).mem = s.mem := rfl
@[simp] theorem State.emit_ip (s : State) (e : Event) : (s.emit e).ip = s.ip := rfl
@[simp] theorem State.emit_cyclesExecuted (s : State) (e : Event) : (s.emit e).cyclesExecuted = s.cyclesExecuted := rfl
@[simp] theorem State.emit_accessed (s : State) (e : Event) : (s.emit e).accessed = s.accessed := rfl
@[simp] theorem State.emit_sourceMap (s : State) (e : Event) : (s.emit e).sourceMap = s.sourceMap := rfl
@[simp] theorem State.emit_callbacks (s : State) (e : Event) : (s.emit e).callbacks = s.callbacks := rfl
@[simp] theorem State.emit_inputQueue (s : State) (e : Event) : (s.emit e).inputQueue = s.inputQueue := rfl
@[simp] theorem State.emit_inputCount (s : State) (e : Event) : (s.emit e).inputCount = s.inputCount := rfl
@[simp] theorem State.emit_events (s : State) (e : Event) : (s.emit e).events = s.events ++ [e] := rfl

/-! ### countCycle -/

@[simp] theorem State.countCycle_mem (s : State) : (s.countCycle).mem = s.mem := rfl
@[simp] theorem State.countCycle_ip (s : State) : (s.countCycle).ip = s.ip := rfl
@[simp] theorem State.countCycle_cyclesExecuted (s : State) : (s.countCycle).cyclesExecuted = s.cyclesExecuted + 1 := rfl
@[simp] theorem State.countCycle_accessed (s : State) : (s.countCycle).accessed = s.accessed := rfl
@[simp] theorem State.countCycle_sourceMap (s : State) : (s.countCycle).sourceMap = s.sourceMap := rfl
@[simp] theorem State.countCycle_callbacks (s : State) : (s.countCycle).callbacks = s.callbacks := rfl
@[simp] theorem State.countCycle_inputQueue (s : State) : (s.countCycle).inputQueue = s.inputQueue := rfl
@[simp] theorem State.countCycle_inputCount (s : State) : (s.countCycle).inputCount = s.inputCount := rfl
@[simp] theorem State.countCycle_events (s : State) : (s.countCycle).events = s.events := rfl

/-! ### takeInput -/

@[simp] theorem State.takeInput_mem (s : State) : (s.takeInput).mem = s.mem := rfl
@[simp] theorem State.takeInput_ip (s : State) : (s.takeInput).ip = s.ip := rfl
@[simp] theorem State.takeInput_cyclesExecuted (s : State) : (s.takeInput).cyclesExecuted = s.cyclesExecuted := rfl
@[simp] theorem State.takeInput_accessed (s : State) : (s.takeInput).accessed = s.accessed := rfl
@[simp] theorem State.takeInput_sourceMap (s : State) : (s.takeInput).sourceMap = s.sourceMap := rfl
@[simp] theorem State.takeInput_callbacks (s : State) : (s.takeInput).callbacks = s.callbacks := rfl
@[simp] theorem State.takeInput_inputQueue (s : State) : (s.takeInput).inputQueue = s.inputQueue.tail := rfl
@[simp] theorem State.takeInput_inputCount (s : State) : (s.takeInput).inputCount = s.inputCount + 1 := rfl
@[simp] theorem State.takeInput_events (s : State) : (s.takeInput).events = s.events := rfl

/-! ### offerInput -/

@[simp] theorem offerInput_mem (s : State) (v : Byte) : (offerInput s v).mem = s.mem := rfl
@[simp] theorem offerInput_ip (s : State) (v : Byte) : (offerInput s v).ip = s.ip := rfl
@[simp] theorem offerInput_cyclesExecuted (s : State) (v : Byte) : (offerInput s v).cyclesExecuted = s.cyclesExecuted := rfl
@[simp] theorem offerInput_accessed (s : State) (v : Byte) : (offerInput s v).accessed = s.accessed := rfl
@[simp] theorem offerInput_sourceMap (s : State) (v : Byte) : (offerInput s v).sourceMap = s.sourceMap := rfl
@[simp] theorem offerInput_callbacks (s : State) (v : Byte) : (offerInput s v).callbacks = s.callbacks := rfl
@[simp] theorem offerInput_inputQueue (s : State) (v : Byte) : (offerInput s v).inputQueue = s.inputQueue ++ [v] := rfl
@[simp] theorem offerInput_inputCount (s : State) (v : Byte) : (offerInput s v).inputCount = s.inputCount := rfl
@[simp] theorem offerInput_events (s : State) (v : Byte) : (offerInput s v).events = s.events := rfl

/-! ### Derived state -/

theorem State.running_eq (s : State) : s.running = runningAt s.ip := rfl

theorem State.bytesAccessed_eq (s : State) : s.bytesAccessed = s.accessed.length := rfl

theorem State.memRead_eq (s : State) (A : Addr) : s.memRead A = s.mem.read A.toNat := rfl

end Sys2Proof.Machine
end

