-- ==== Sys2Proof/Laws/Ops.lean ====
section
/-! SUPPORT. One lemma per shared operation of the step: the state it leaves, field by field. -/

namespace Sys2Proof.Machine

/-- The reset state is the construction from the empty program with every callback attached. -/
theorem construct_empty : construct Program.empty Callbacks.all [] = .next State.reset := by
  simp [construct, constructed, imageAdmitted, Program.empty, State.reset, Memory.ofBytes]

/-- The memory of the reset state has the canonical form. -/
theorem State.reset_mem_wf : State.reset.mem.wf = true := rfl

/-- `runningAt` as a bound on `ip` (10_state.md R26). -/
theorem runningAt_iff (ip : Addr) : runningAt ip = true ↔ ip.toNat ≤ 252 := by
  simp only [runningAt, decide_eq_true_eq]
  exact ⟨fun h => by simp only [Config.insnBytes, Config.memBound] at h; omega,
    fun h => by simp only [Config.insnBytes, Config.memBound]; omega⟩

/-- The signed value of a byte is its two's-complement value (00_scope.md R10). -/
theorem s8_eq_toInt (u : Byte) : s8 u = u.toInt := by
  revert u; decide

/-- The subtraction is the bit vector's own (40_subleq.md R133). -/
theorem subtract_eq (av bv : Byte) : subtract av bv = av - bv := by
  apply BitVec.eq_of_toNat_eq
  simp only [subtract, u8, BitVec.toNat_ofInt, BitVec.toNat_sub]
  omega

/-! ### Fetch -/

@[simp] theorem State.afterFetch_ip (s : State) : s.afterFetch.ip = s.ip + 3#8 := rfl
@[simp] theorem State.afterFetch_accessed (s : State) :
    s.afterFetch.accessed = ((s.accessed.insert s.ip).insert (s.ip + 1#8)).insert (s.ip + 2#8) := rfl
@[simp] theorem State.afterFetch_mem (s : State) : s.afterFetch.mem = s.mem := rfl
@[simp] theorem State.afterFetch_cyclesExecuted (s : State) : s.afterFetch.cyclesExecuted = s.cyclesExecuted := rfl
@[simp] theorem State.afterFetch_sourceMap (s : State) : s.afterFetch.sourceMap = s.sourceMap := rfl
@[simp] theorem State.afterFetch_callbacks (s : State) : s.afterFetch.callbacks = s.callbacks := rfl
@[simp] theorem State.afterFetch_inputQueue (s : State) : s.afterFetch.inputQueue = s.inputQueue := rfl
@[simp] theorem State.afterFetch_inputCount (s : State) : s.afterFetch.inputCount = s.inputCount := rfl
@[simp] theorem State.afterFetch_events (s : State) : s.afterFetch.events = s.events := rfl

/-! ### The B read (20_memory.md R55) -/

/-- Whether the B read issues an input request: `b` is the port and an input callback is attached. -/
def State.requestsInput (s : State) (b : Addr) : Bool := decide (b = Config.addrIn) && s.callbacks.input

/-- What the B read leaves: `Touch(b)`, and one request issued and answered if it asks for input. -/
theorem State.afterReadB_eq (s : State) (b : Addr) :
    s.afterReadB b =
      { s with
        accessed := s.accessed.insert b
        inputQueue := if s.requestsInput b then s.inputQueue.tail else s.inputQueue
        inputCount := if s.requestsInput b then s.inputCount + 1 else s.inputCount
        events := s.events ++ if s.requestsInput b then [.input (s8 s.nextReply)] else [] } := by
  unfold State.afterReadB State.afterInRead State.requestsInput
  by_cases hb : b = Config.addrIn <;> by_cases hi : s.callbacks.input = true <;>
    simp [hb, hi, State.touch, State.takeInput, State.emit]

/-! ### The write-back (R56) -/

/-- What the write-back leaves: one event, `Touch(a)`, and the store unless `a` is the output port. -/
theorem State.writeBack_eq (s : State) (a : Addr) (r : Byte) :
    s.writeBack a r =
      { s with
        mem := if a = Config.addrOut then s.mem else s.mem.write a.toNat r
        accessed := s.accessed.insert a
        events := s.events ++ [if a = Config.addrOut then .out (s8 r) else .memWrite a r] } := by
  unfold State.writeBack State.outWrite State.memWrite
  split <;> simp_all [State.touch, State.store, State.emit]

/-! ### The branch and the end of the step (40_subleq.md R135, R136) -/

/-- What the branch leaves: `ip` replaced by `c` if it is taken. -/
theorem State.branch_eq (s : State) (c : Addr) (r : Byte) :
    s.branch c r = { s with ip := if branchTaken r then c else s.ip } := by
  unfold State.branch
  split <;> simp [State.setIp]

/-- What the end of a step leaves: one more cycle, the state update, and the halt notification if now Halted. -/
theorem State.finish_eq (s : State) :
    s.finish =
      { s with
        cyclesExecuted := s.cyclesExecuted + 1
        events := s.events ++ stateUpdate s.sourceMap s.ip (s.cyclesExecuted + 1) s.bytesAccessed ::
          if s.running then [] else [.halt (s.cyclesExecuted + 1) s.bytesAccessed] } := by
  unfold State.finish
  by_cases h : s.running = true <;>
    simp [State.running, State.emit, State.countCycle, State.bytesAccessed] at h ⊢ <;> simp [h]

/-! ### Placing an instruction -/

/-- Placing bytes changes memory alone. -/
theorem State.placeBytes_mem_only (s : State) (A : Addr) (bs : List Byte) :
    s.placeBytes A bs = { s with mem := (s.placeBytes A bs).mem } := by
  induction bs generalizing s A with
  | nil => rfl
  | cons b bs ih =>
    have h := ih (s.store A b) (A + 1#8)
    simp only [State.placeBytes]
    exact h

/-- Three bytes placed at `A` below the top of memory are there to be read (log entry 3). -/
theorem State.placeBytes_read {s : State} (hw : s.mem.wf = true) {A : Addr} (hA : A.toNat ≤ 252) (x y z : Byte) :
    (s.placeBytes A [x, y, z]).memRead A = x ∧ (s.placeBytes A [x, y, z]).memRead (A + 1#8) = y ∧
      (s.placeBytes A [x, y, z]).memRead (A + 2#8) = z := by
  have e1 : (A + 1#8).toNat = A.toNat + 1 := by simp only [BitVec.toNat_add, BitVec.toNat_ofNat]; omega
  have e2 : (A + 2#8).toNat = A.toNat + 2 := by simp only [BitVec.toNat_add, BitVec.toNat_ofNat]; omega
  have e3 : A + 1#8 + 1#8 = A + 2#8 := by rw [BitVec.add_assoc]; rfl
  have w1 := Memory.wf_write hw (a := A.toNat) (by rw [memSize_eq]; omega) x
  have w2 := Memory.wf_write w1 (a := A.toNat + 1) (by rw [memSize_eq]; omega) y
  simp only [State.placeBytes, State.memRead, State.store_mem, e1, e2, e3, Memory.read_write hw, Memory.read_write w1,
    Memory.read_write w2]
  simp

end Sys2Proof.Machine
end

