-- ==== Sys2Proof/Laws/PerInstr.lean ====
section
/-! SUPPORT. Statements about every instruction as syntax, one lemma per constructor. -/

namespace Sys2Proof.Laws.EncodedLength

/-- A well-formed instruction's encoding is exactly three bytes long (30_encoding.md R80). -/
def Statement (i : Sys2Proof.Instr) : Prop :=
  i.wf = true → (Sys2Proof.encode i).length = Sys2Proof.Config.insnBytes

theorem subleq (a b c : Sys2Proof.Addr) : Statement (.subleq a b c) := fun _ => rfl

end Sys2Proof.Laws.EncodedLength
end

