-- ==== Sys2Proof/Tests/Slice0.lean ====
section
/-! SUPPORT. The model's own tests. Expected results come from spec/95_test_vectors.md and the rules of spec/. The second
half shows, for each statement with hypotheses, a concrete case that meets them. -/

namespace Sys2Proof.Tests
open Sys2Proof.Machine Sys2Proof.Stated

/-! ### Well-formedness: the check of an image refuses an ill-formed one. Every `Instr` is well-formed (R86), so no term is
an ill-formed instruction. -/

/-- 95_test_vectors.md section 2.6, R3. -/
theorem test_image_of_257_entries_is_refused : imageAdmitted (List.replicate 257 0) = false := by decide +kernel

theorem test_image_entries_outside_a_byte_are_refused :
    imageAdmitted [0, 256] = false ∧ imageAdmitted [-1] = false ∧ imageAdmitted [0, 255] = true := by decide

theorem test_every_instruction_is_wellformed : Instr.wf (.subleq 255#8 255#8 255#8) = true := by decide

/-! ### Decoding: words written out bit by bit from 30_encoding.md R80, R82 -/

/-- `(254, 253, 3)`: `subleq @OUT, @IN`, the image of L1-7. -/
theorem test_decode_bytes_of_L1_7 :
    decode [0b11111110#8, 0b11111101#8, 0b00000011#8] = .ok (.subleq 254#8 253#8 3#8, []) := by decide

/-- The 24-bit notation puts the byte at the lowest address highest (R82). -/
theorem test_table_word_of_L1_7 : decodeTableWord 24 0b11111110_11111101_00000011 = some (.subleq 254#8 253#8 3#8) := by
  decide

theorem test_two_bytes_are_no_instruction : decode [1#8, 2#8] = .error (.truncated 2) := by decide

/-! ### Numbers: 95_test_vectors.md sections 2.1 and 2.2 -/

/-- One row of section 2.1: `av`, `bv`, `result`, its signed value, whether the branch is taken. -/
def arithmeticRow (av bv r : Byte) (s : Int) (taken : Bool) : Bool :=
  subtract av bv == r && s8 r == s && branchTaken r == taken

theorem test_arithmetic_vectors :
    (arithmeticRow 0 0 0 0 true && arithmeticRow 5 3 2 2 false && arithmeticRow 3 5 254 (-2) true &&
      arithmeticRow 127 255 128 (-128) true && arithmeticRow 128 1 127 127 false && arithmeticRow 0 128 128 (-128) true &&
      arithmeticRow 0 127 129 (-127) true && arithmeticRow 100 156 200 (-56) true && arithmeticRow 200 100 100 100 false &&
      arithmeticRow 0 255 1 1 false) = true := by decide

theorem test_conversions :
    s8 127 = 127 ∧ s8 128 = -128 ∧ s8 255 = -1 ∧ u8 (-1) = 255#8 ∧ u8 (-129) = 127#8 ∧ u8 256 = 0#8 := by decide

/-! ### One step: 95_test_vectors.md sections 2.3 to 2.5 -/

/-- A small state: `ip`, the listed cells, the queued answers; nothing counted, nothing sent. -/
def smallState (ip : Addr) (cells : Memory) (queue : List Byte) : State :=
  { mem := cells, ip := ip, cyclesExecuted := 0, accessed := [], sourceMap := [], callbacks := Callbacks.all,
    inputQueue := queue, inputCount := 0, events := [] }

/-- The step answers a next state that meets `check`. -/
def nextMeets (o : Host.Outcome State Fault Refusal) (check : State → Bool) : Bool :=
  match o with
  | .next t => check t
  | _ => false

/-- S1, S2, S5 (the step's own `c` is rewritten, the old one used), H4 (at 252, fetching 253 and 254 as plain bytes). -/
theorem test_subleq_on_memory :
    (nextMeets (step (smallState 0 [(0, 6), (1, 7), (2, 3), (6, 5), (7, 7)] [])) (fun t =>
        t.mem.read 6 == 254 && t.ip == 3 && t.accessed == [0, 1, 2, 6, 7] &&
        t.events == [.memWrite 6 254, .stateUpdated true 3 none none 1 5]) &&
      nextMeets (step (smallState 0 [(0, 6), (1, 7), (2, 9), (6, 7), (7, 5)] [])) (fun t =>
        t.mem.read 6 == 2 && t.ip == 3) &&
      nextMeets (step (smallState 0 [(0, 2), (1, 3), (2, 9), (3, 10)] [])) (fun t => t.mem.read 2 == 255 && t.ip == 9) &&
      nextMeets (step (smallState 252 [(20, 5), (21, 1), (252, 20), (253, 21)] [9])) (fun t =>
        t.mem.read 20 == 4 && t.ip == 255 && t.running == false && t.inputs == [])) = true := by decide

/-- L1-7, IO4, IO8 (input -128), H8 (the output comes before the notifications of the halt). -/
theorem test_subleq_on_ports :
    (nextMeets (step (smallState 0 [(0, 254), (1, 253), (2, 3)] [4])) (fun t =>
        t.events == [.input 4, .out (-4), .stateUpdated true 3 none none 1 5] && t.mem.read 254 == 0) &&
      nextMeets (step (smallState 0 [(0, 253), (1, 253), (2, 9), (253, 7)] [10])) (fun t =>
        t.mem.read 253 == 253 && t.ip == 9 && t.inputs == [10]) &&
      nextMeets (step (smallState 0 [(0, 254), (1, 253), (2, 3)] [128])) (fun t => t.outputs == [-128]) &&
      nextMeets (step (smallState 0 [(0, 254), (1, 20), (2, 255), (20, 1)] [])) (fun t =>
        t.events == [.out (-1), .stateUpdated false 255 none none 1 5, .halt 1 5])) = true := by decide

/-- IO2: no input callback, so `bv = 0` and nothing is asked. -/
theorem test_no_input_callback :
    nextMeets (step { smallState 0 [(0, 20), (1, 253), (2, 3), (20, 10), (253, 7)] [4] with
      callbacks := ⟨false, true, true, true, true⟩ }) (fun t =>
        t.mem.read 20 == 10 && t.mem.read 253 == 7 && t.events == [.memWrite 20 10, .stateUpdated true 3 none none 1 5] &&
        t.inputQueue == [4]) = true := by decide

/-! ### Construction: section 2.6, and the source-line lookup of program P1 -/

/-- A short program with a source map. -/
def smallProgram : Program :=
  ⟨[254, 253, 3], [(0#8, ⟨1, "a".toList⟩), (3#8, ⟨2, "b".toList⟩)], []⟩

theorem test_construction_events :
    nextMeets (construct smallProgram Callbacks.all []) (fun s =>
      s.events.take 3 == [.memWrite 0 254, .memWrite 1 253, .memWrite 2 3] &&
      s.events.drop 256 == [.stateUpdated true 0 (some 1) (some "a".toList) 0 0]) = true := by decide +kernel

theorem test_line_lookup :
    lineOf smallProgram.sourceMap 2 = some 1 ∧ lineOf smallProgram.sourceMap 3 = some 2 ∧
      lineOf [(3#8, ⟨2, []⟩)] 2 = none := by decide

/-! ### The assembler: section 2.7 and L1 -/

/-- The image a source assembles to, as a list. -/
def imageOf (lines : List String) : List Int :=
  match assemble 1 (lines.map String.toList) with
  | .ok p => p.bytes
  | .error _ => [-1]

/-- What kind of error a source gives; 0 if it assembles. -/
def errorKind (lines : List String) : Nat :=
  match assemble 1 (lines.map String.toList) with
  | .ok _ => 0
  | .error (.syntaxError _ _) => 1
  | .error (.argumentCount _ _ _ _) => 2
  | .error (.rangeError _ _) => 3
  | .error (.unknownInstruction _ _ _) => 4
  | .error (.duplicateLabel _ _ _) => 5
  | .error (.undefinedReference _) => 6

/-- Program P1's image (section 3). -/
theorem test_assemble_P1 :
    imageOf ["@loop: subleq @OUT, @IN", "subleq @zero, @zero, @loop", "@zero: .data 0"] = [254, 253, 3, 6, 6, 0, 0] := by
  decide +kernel

/-- L1-2, A7, A8, A13, A14, A15, L1-3. -/
theorem test_assemble_operands :
    imageOf ["subleq @x+1, @x-1, @x", "@x: .data 0"] = [4, 2, 3, 0] ∧
      imageOf ["@x: .data 0", ".data @x-1"] = [0, 255] ∧ imageOf ["@x: .data 10", ".data @x+300"] = [10, 44] ∧
      imageOf [".data @HALT"] = [255] ∧ imageOf ["  subleq 0, 0 ; c"] = [0, 0, 3] ∧
      imageOf ["@self: subleq @self, @self, @self"] = [0, 0, 0] ∧ imageOf [".data -128", ".data -1"] = [128, 255] := by
  decide +kernel

/-- A2, A3, A4, A11 (syntax), A10 and L1-9 (argument count), A5 and A6 (range). -/
theorem test_assemble_errors_of_form :
    [["subleq 1,2"], ["subleq @a , @b"], [".data 1 2"], ["@a: @b: .data 0"], ["subleq"], ["subleq 1, 2, 3, 4"],
      ["subleq -1, 0"], ["subleq 256, 0"], [".data 128"], [".data 255"]].map errorKind = [1, 1, 1, 1, 2, 2, 3, 3, 3, 3] := by
  decide +kernel

/-- A10: the error reports the requirement and the count (30_encoding.md R96). -/
theorem test_argument_count_reports_requirement :
    assembleLine 1 "subleq".toList asmStart = .error (.argumentCount 1 "subleq".toList [2, 3] 0) := by rfl

/-- A9 (unknown), L1-5 (duplicate), L1-6 (undefined), A12 (nothing but a label and comments assembles). -/
theorem test_assemble_errors_of_names :
    [["foo 1"], [".word 1"], ["SUBLEQ 1, 2"], ["@x: .data 0", "@x: .data 0"], ["@IN: .data 0"], ["subleq @nope, 0"],
      ["; only comment", "", "@lab:"]].map errorKind = [4, 4, 4, 5, 5, 6, 0] := by
  decide +kernel

/-- A16 and A17: the default target at 253, and the size limit. -/
theorem test_assemble_limits :
    (imageOf (List.replicate 253 ".data 0" ++ ["subleq 0, 0"])).drop 253 = [0, 0, 0] ∧
      errorKind (List.replicate 257 ".data 0") = 3 ∧ errorKind (List.replicate 256 ".data 0" ++ ["@end:"]) = 3 := by
  decide +kernel

/-! ### Witnesses: the hypotheses of the statements can be met -/

/-- Running at the lowest and the highest address that executes, canonical, with and without the ports. -/
theorem witness_running_wf :
    (smallState 0 [(0, 6), (1, 7), (2, 3), (6, 5), (7, 7)] []).running = true ∧
      (smallState 0 [(0, 6), (1, 7), (2, 3), (6, 5), (7, 7)] []).wf = true ∧
      (smallState 252 [(252, 6), (253, 7), (254, 3)] []).running = true ∧
      (smallState 252 [(252, 6), (253, 7), (254, 3)] []).wf = true := by decide

/-- StepRunsDecodedInstruction, at the last address that executes. -/
theorem witness_StepRunsDecodedInstruction :
    ∃ (s : State) (i : Instr), s.running = true ∧ i.wf = true ∧
      decode [s.mem.read s.ip.toNat, s.mem.read (s.ip.toNat + 1), s.mem.read (s.ip.toNat + 2)] = .ok (i, []) :=
  ⟨smallState 252 [(252, 6), (253, 7), (254, 3)] [], .subleq 6 7 3, by decide⟩

/-- DecodeAndEncodeAgree and DecoderAlwaysTakesThreeBytes, both clauses. -/
theorem witness_decoding :
    (Instr.subleq 0 0 0).wf = true ∧ 3 ≤ [0#8, 0#8, 0#8].length ∧ [0#8, 0#8].length < 3 := by decide

/-- PlacedWordRunsNext: a Running and a Halted state. -/
theorem witness_PlacedWordRunsNext :
    (smallState 252 [] []).wf = true ∧ (smallState 253 [] []).wf = true ∧ (smallState 253 [] []).running = false ∧
      24 ≤ 24 := by decide

/-- SubleqNextState, OperandAReadsTheStoredByte, WriteBackStoresOrOutputs: destination 254 and another, and the B port. -/
theorem witness_destinations :
    ∃ s : State, s.wf = true ∧ s.running = true ∧ (254#8 : Addr) = 254#8 ∧ (6#8 : Addr) ≠ 254#8 ∧
      s.callbacks.input = true :=
  ⟨smallState 0 [(6, 5)] [], by decide⟩

/-- InputPortReadsTheHost: each of its four clauses. -/
theorem witness_InputPortReadsTheHost :
    ((smallState 0 [(0, 6)] [4]).wf = true ∧ (smallState 0 [(0, 6)] [4]).running = true ∧
        (smallState 0 [(0, 6)] [4]).callbacks.input = true ∧ (smallState 0 [(0, 6)] [4]).inputQueue = [4]) ∧
      (smallState 0 [(0, 6)] []).inputQueue = [] ∧
      ({ smallState 0 [(0, 6)] [] with callbacks := ⟨false, true, true, true, true⟩ } : State).callbacks.input = false ∧
      (252#8 : Addr) ≠ 253#8 := by decide

/-- ControlTransferIsAbsolute: taken, not taken, `c = ip0 + 3`, and a taken target of 253 (90_conflicts.md C1). -/
theorem witness_ControlTransferIsAbsolute :
    s8 (result (smallState 0 [(6, 5), (7, 7)] []) 6 7) ≤ 0 ∧ 0 < s8 (result (smallState 0 [(6, 7), (7, 5)] []) 6 7) ∧
      (3#8 : Addr).toNat = (smallState 0 [] []).ip.toNat + 3 ∧ 253 ≤ (253#8 : Addr).toNat ∧
      nextMeets (exec (.subleq 6 7 200) (smallState 0 [(6, 5), (7, 7)] [])) (fun t => t.running) = true := by decide

/-- SubleqFrame, for a store and for an output. -/
theorem witness_SubleqFrame :
    (∃ t, exec (.subleq 6 7 3) (smallState 0 [(6, 5)] []) = .next t) ∧
      (∃ t, exec (.subleq 254 7 3) (smallState 255 [(6, 5)] []) = .next t) := ⟨⟨_, rfl⟩, ⟨_, rfl⟩⟩

/-- OutputCellNeverChanges, CountersNeverDecrease, SourceMapOnlyTraces, CallbacksNeverChangeTransitions: a step of a Running
and of a Halted core, and another callback set with the same input. -/
theorem witness_steps :
    (∃ t, step (smallState 0 [(6, 5)] []) = .next t) ∧ (∃ t, step (smallState 253 [(6, 5)] []) = .next t) ∧
      (⟨true, false, false, false, false⟩ : Callbacks).input = (smallState 0 [(6, 5)] []).callbacks.input :=
  ⟨⟨_, rfl⟩, ⟨_, rfl⟩, rfl⟩

/-- CallbacksNeverChangeTransitions: each callback left out. -/
theorem witness_callbacks_left_out :
    ∃ s : State, s.callbacks.input = false ∧ s.callbacks.output = false ∧ s.callbacks.writeMemory = false ∧
      s.callbacks.stateUpdated = false ∧ s.callbacks.halt = false ∧ ∃ t, step s = .next t :=
  ⟨{ smallState 0 [(6, 5)] [] with callbacks := ⟨false, false, false, false, false⟩ }, rfl, rfl, rfl, rfl, rfl, _, rfl⟩

/-- OwnBytesAreFetchedBeforeTheWrite: `a` is each of the own bytes in turn, and so is `b`. -/
theorem witness_OwnBytesAreFetchedBeforeTheWrite :
    ((smallState 4 [(4, 4), (5, 6), (6, 9)] []).fetch = .subleq 4 6 9 ∧
        (smallState 4 [(4, 5), (5, 4), (6, 9)] []).fetch = .subleq 5 4 9 ∧
        (smallState 4 [(4, 6), (5, 5), (6, 9)] []).fetch = .subleq 6 5 9) ∧
      (smallState 4 [(4, 4), (5, 6), (6, 9)] []).wf = true ∧ (smallState 4 [(4, 4), (5, 6), (6, 9)] []).running = true ∧
      (smallState 4 [] []).ip + 2#8 = 6#8 := by decide

/-- SubtractFromItselfClearsAndJumps: an ordinary cell and the output port. -/
theorem witness_SubtractFromItselfClearsAndJumps :
    (smallState 0 [(6, 5)] []).wf = true ∧ (smallState 0 [(6, 5)] []).running = true ∧ (255#8 : Addr) ≠ 253#8 ∧
      (254#8 : Addr) ≠ 253#8 := by decide

/-- InputPortCombinations: `mem[254] = 0`, and `b` next to the port. -/
theorem witness_InputPortCombinations :
    (smallState 0 [(253, 7)] [4]).wf = true ∧ (smallState 0 [(253, 7)] [4]).running = true ∧
      (smallState 0 [(253, 7)] [4]).mem.read 254 = 0#8 ∧ (254#8 : Addr) ≠ 253#8 := by decide

/-- HaltConditionIsAFunctionOfIp, HaltedStepIsNoOp: both sides of the boundary. -/
theorem witness_halt_boundary :
    (smallState 252 [] []).running = true ∧ (smallState 253 [] []).running = false ∧
      (smallState 254 [] []).running = false ∧ (smallState 255 [] []).running = false := by decide

/-- HaltNotifiedInTheHaltingStep: a halting step, a step that stays Running, a construction. -/
theorem witness_HaltNotifiedInTheHaltingStep :
    nextMeets (step (smallState 0 [(0, 20), (1, 20), (2, 253)] [])) (fun t => !t.running) = true ∧
      nextMeets (step (smallState 249 [(249, 20), (250, 21), (251, 0), (20, 9)] [])) (fun t => t.running) = true ∧
      (∃ s, construct smallProgram Callbacks.all [4] = .next s) := ⟨by decide, by decide, _, rfl⟩

/-- ZeroInstructionLoopsForever. -/
theorem witness_ZeroInstructionLoopsForever : (smallState 0 [] [1]).mem = [] ∧ (smallState 0 [] [1]).ip = 0#8 := ⟨rfl, rfl⟩

/-- BoundedRunEndsHalted. -/
theorem witness_BoundedRunEndsHalted : ∃ t, runUntilHalted 1 (smallState 0 [(0, 20), (1, 20), (2, 255)] []) = some t :=
  ⟨_, rfl⟩

/-- BoundedRunEndsHalted, the other way: one step, at most the bound, leaves a Halted state. -/
theorem witness_BoundedRun_steps_to_Halted :
    ∃ t, 1 ≤ 5 ∧ Host.Core.run core 1 (smallState 0 [(0, 20), (1, 20), (2, 255)] []) = .next t ∧ t.running = false :=
  ⟨_, by decide, rfl, by decide⟩

/-- NextStateDependsOnCoreAndInput: two different states with one core, at an instruction that reads the port. -/
theorem witness_NextStateDependsOnCoreAndInput :
    ∃ s t s' t' : State, s ≠ t ∧ SameCore s t ∧ step s = .next s' ∧ step t = .next t' ∧
      s.mem.read (s.ip.toNat + 1) = 253#8 ∧ inValue s = inValue t :=
  ⟨smallState 0 [(0, 6), (1, 253)] [4], { smallState 0 [(0, 6), (1, 253)] [4] with callbacks := ⟨true, false, true, true, true⟩ },
    _, _, by decide, ⟨rfl, rfl, rfl, rfl⟩, rfl, rfl, by decide, by decide⟩

/-- LineLookupIsNearestPreceding: found, and not found. -/
theorem witness_LineLookupIsNearestPreceding :
    nearestLine smallProgram.sourceMap 2 = some (0#8, ⟨1, "a".toList⟩) ∧ nearestLine [(3#8, ⟨2, []⟩)] 2 = none := by decide

/-- ConstructionState, MalformedImageIsRefused: the empty image, a full one, one too long, one with a bad entry. -/
theorem witness_images :
    imageAdmitted [] = true ∧ imageAdmitted (List.replicate 256 255) = true ∧ 256 < (List.replicate 257 (0 : Int)).length ∧
      (∃ v ∈ [(256 : Int)], v < 0 ∨ 255 < v) := by
  refine ⟨by decide, by decide +kernel, by decide +kernel, 256, by decide⟩

/-- A state a construction leaves, for the invariant. -/
def builtState : State := constructed smallProgram Callbacks.all [4]

/-- StepKeepsInvariant, ConstructionMeetsInvariant, ReachableStatesMeetInvariant, OutputCellHoldsTheImageByte,
BytesAccessedAtMost256: the construction of a small program, and a step from it. -/
theorem witness_invariant :
    (replay builtState.events = builtState.mem ∧ builtState.events.countP Event.isHalt = 0 ∧
      builtState.events.countP Event.isUpdate = 1 ∧ builtState.events.countP Event.isWrite = 256 ∧
      builtState.events.countP Event.isInput = 0 ∧ builtState.wf = true ∧ builtState.running = true) := by decide +kernel

theorem witness_StepKeepsInvariant : ∃ t, builtState.Inv ∧ step builtState = .next t := by
  obtain ⟨h1, h2, h3, h4, h5, h6, h7⟩ := witness_invariant
  refine ⟨_, ⟨h6, h1, ?_, h3, h4, h5⟩, rfl⟩
  simpa [State.haltSentOnce, h7] using h2

theorem witness_Reachable :
    Reachable smallProgram Callbacks.all builtState ∧ Reachable smallProgram Callbacks.all (offerInput builtState 5) :=
  ⟨.construct [4] _ rfl, .offer _ _ (.construct [4] _ rfl)⟩

/-! ### Witnesses for the statements about the assembler -/

/-- An assembler state with `n` bytes emitted. -/
def asmAt (n : Nat) : AsmState := ⟨List.replicate n (.resolved 0), predefinedSymbols, []⟩

/-- SubleqEmitsItsThreeOperands, TwoOperandSubleqTargetsTheNextAddress, DataEmitsOneByte: at the last address that fits. -/
theorem witness_emission :
    (asmAt 253).emitted.length + 3 ≤ 256 ∧ (asmAt 252).emitted.length + 3 ≤ 255 ∧ (asmAt 253).emitted.length = 253 ∧
      (asmAt 255).emitted.length < 256 ∧
      resolveOperand (asmAt 253).symbols Config.addressRange (.literal 255) = some (.resolved 255) ∧
      resolveOperand (asmAt 253).symbols Config.addressRange (.symbol ['@', 'I', 'N'] 1) = some (.resolved 254) ∧
      resolveOperand (asmAt 255).symbols Config.valueRange (.literal (-128)) = some (.resolved 128) ∧
      ([] : List SourceOperand).length ≠ 1 := by decide +kernel

/-- LiteralsAreRangeChecked: just outside and just inside both ranges. -/
theorem witness_LiteralsAreRangeChecked :
    ([SourceOperand.literal 0, .literal 256].length = 2 ∧ (256 : Int) > 255 ∧ SourceOperand.literal 256 ∈ [.literal 0, .literal 256]) ∧
      (-129 : Int) < -128 ∧ (127 : Int) < 128 ∧ (0 : Int) ≤ 255 ∧ (-128 : Int) ≤ 127 := by decide

/-- SymbolOperandsWrap, LabelResolutionIsOrderIndependent: a bound and an unbound symbol, before and after a line. -/
theorem witness_symbols :
    lookupSymbol asmStart.symbols ['@', 'I', 'N'] = some 253#8 ∧ lookupSymbol asmStart.symbols ['@', 'x'] = none ∧
      (∃ st st', passOne 1 [".data @x".toList] asmStart = .ok st ∧ passOne 2 ["@x: .data 0".toList] st = .ok st' ∧
        resolveOperand st.symbols Config.valueRange (.symbol ['@', 'x'] 0) = some (.pending ['@', 'x'] 0)) ∧
      passTwo asmStart.symbols [.pending ['@', 'I', 'N'] 1] = .ok [254] :=
  ⟨by decide, by decide, ⟨_, _, rfl, rfl, by decide⟩, by decide⟩

/-- UnboundSymbolIsUndefinedReference: an undefined symbol, and none, with the program it makes. -/
theorem witness_UnboundSymbolIsUndefinedReference :
    (∃ st, passOne 1 [".data @x".toList] asmStart = .ok st ∧ .pending ['@', 'x'] 0 ∈ st.emitted ∧
        lookupSymbol st.symbols ['@', 'x'] = none) ∧
      (∃ st p, passOne 1 [".data 5".toList] asmStart = .ok st ∧ st.emitted = [.resolved 5] ∧
        assemble 1 [".data 5".toList] = .ok p) :=
  ⟨⟨_, rfl, by decide, by decide⟩, ⟨_, _, rfl, by decide, rfl⟩⟩

/-- SourceMapRecordsEmittingLines, AssembledProgramsConstruct: a line that emits, one that does not, and a program. -/
theorem witness_lines :
    (∃ st', assembleLine 1 ".data 5".toList asmStart = .ok st' ∧ asmStart.emitted.length < st'.emitted.length) ∧
      (∃ st', assembleLine 1 "@lab:".toList asmStart = .ok st' ∧ st'.emitted.length = asmStart.emitted.length) ∧
      (∃ p, assemble 1 [".data 5".toList] = .ok p ∧ p.bytes = [5]) :=
  ⟨⟨_, rfl, by decide⟩, ⟨_, rfl, by decide⟩, ⟨_, rfl, rfl⟩⟩

/-- LabelsBindOnce: a label already bound, a new one, and a new one at output address 256. -/
theorem witness_LabelsBindOnce :
    parseLine "@IN: .data 0".toList = some ⟨some ['@', 'I', 'N'], some (nameData, [.literal 0])⟩ ∧
      lookupSymbol asmStart.symbols ['@', 'I', 'N'] = some 253#8 ∧
      parseLine "@x:".toList = some ⟨some ['@', 'x'], none⟩ ∧ lookupSymbol asmStart.symbols ['@', 'x'] = none ∧
      asmStart.emitted.length < 256 ∧ lookupSymbol (asmAt 256).symbols ['@', 'x'] = none ∧
      256 ≤ (asmAt 256).emitted.length := by decide +kernel

/-- EmissionBeyondMemoryIsRangeError: the first address at which each form no longer fits. -/
theorem witness_EmissionBeyondMemoryIsRangeError :
    256 < (asmAt 254).emitted.length + 3 ∧ 256 ≤ (asmAt 256).emitted.length ∧
      [SourceOperand.literal 0, .literal 0].length = 2 ∧ [SourceOperand.literal 0].length = 1 := by decide +kernel

/-- CommaSeparationIsMandatory: an operand after whitespace, a text that is none of the three, and no operand after a comma. -/
theorem witness_CommaSeparationIsMandatory :
    parseExpr "1, 2".toList = some (.literal 1, ", 2".toList) ∧ [' '].all isBlankChar = true ∧
      parseExpr [] = none ∧ (([] : Text).head?.all (fun c => !isBlankChar c)) = true ∧
      (∀ blanks rest : Text, blanks ≠ [] → blanks.all isBlankChar = true → ['/'] ≠ ',' :: blanks ++ rest) ∧
      (∀ blanks comment : Text, blanks.all isBlankChar = true → ['/'] ≠ blanks ∧ ['/'] ≠ blanks ++ ';' :: comment) := by
  refine ⟨by decide, by decide, by decide, by decide, ?_, ?_⟩
  · intro blanks rest _ _ h
    exact absurd (List.cons.inj h).1 (by decide)
  · intro blanks comment hb
    cases blanks with
    | nil => exact ⟨by simp, fun h => absurd (List.cons.inj h).1 (by decide)⟩
    | cons c cs =>
      simp only [List.all_cons, Bool.and_eq_true] at hb
      exact ⟨fun h => absurd ((List.cons.inj h).1 ▸ hb.1) (by decide),
        fun h => absurd ((List.cons.inj h).1 ▸ hb.1) (by decide)⟩

/-- OtherNamesAreUnknownInstructions, BlankAndCommentLinesEmitNothing. -/
theorem witness_names_and_blanks :
    ['f', 'o', 'o'] ≠ nameSubleq ∧ ['f', 'o', 'o'] ≠ nameData ∧ [' ', '\t'].all isBlankChar = true ∧ [' '] ≠ [] ∧
      isBlankChar ',' = false ∧ ',' ≠ ';' := by decide

/-- FirstAssemblyErrorWins. -/
theorem witness_FirstAssemblyErrorWins :
    passOne 1 ["foo 1".toList] asmStart = .error (.unknownInstruction 1 "foo 1".toList ['f', 'o', 'o']) := by rfl

end Sys2Proof.Tests
end

section
/-! PROOFS. The conversions of 00_scope.md R10: `u8` and `s8` are mutually inverse between the bytes and -128..127,
by way of the two's-complement value (`s8_eq_toInt`). -/

namespace Sys2Proof.Machine

theorem toNat_u8 (v : Int) : ((u8 v).toNat : Int) = v % 256 := by
  have hpow : ((2 ^ 8 : Nat) : Int) = 256 := rfl
  rw [u8, BitVec.toNat_ofInt, hpow]
  exact Int.toNat_of_nonneg (Int.emod_nonneg v (by decide))

theorem s8_of_le_127 {u : Byte} (h : u.toNat ≤ 127) : s8 u = u.toNat := by
  rw [s8_eq_toInt]
  exact BitVec.toInt_eq_toNat_of_lt (by omega)

theorem s8_of_128_le {u : Byte} (h : 128 ≤ u.toNat) : s8 u = (u.toNat : Int) - 256 := by
  rw [s8_eq_toInt, BitVec.toInt_eq_toNat_cond, if_neg (by omega)]
  rfl

@[simp] theorem u8_s8 (u : Byte) : u8 (s8 u) = u := by
  rw [s8_eq_toInt]
  exact BitVec.ofInt_toInt

theorem s8_u8 {v : Int} (hlo : -128 ≤ v) (hhi : v ≤ 127) : s8 (u8 v) = v := by
  rw [s8_eq_toInt]
  exact BitVec.toInt_ofInt_eq_self (by decide) hlo (by omega)

/-- Settles O1, clause by clause; the formula for `s8` is the model's own. -/
theorem signedAndUnsignedConversions : Obligations.SignedAndUnsignedConversions :=
  ⟨toNat_u8, fun _ => rfl, fun _ => s8_of_le_127, fun _ => s8_of_128_le, u8_s8, fun _ => s8_u8⟩

end Sys2Proof.Machine
end

section
/-! PROOFS. One step in closed form: the state `subleq` leaves, written with the quantities of `Sys2Proof.Stated`. -/

namespace Sys2Proof.Machine
open Sys2Proof.Stated

/-! ### The quantities of a step, as the operations compute them -/

theorem State.requestsInput_iff (s : State) (b : Addr) :
    s.requestsInput b = true ↔ b = 253#8 ∧ s.callbacks.input = true := by
  rw [State.requestsInput, Bool.and_eq_true, decide_eq_true_eq, Config.addrIn]

theorem subtract_eq_result (s : State) (a b : Addr) :
    subtract (s.afterFetch.readA a) (s.afterFetch.readB b) = result s a b := by
  have hA : s.afterFetch.readA a = s.mem.read a.toNat := rfl
  have hB : s.afterFetch.readB b = bValue s b := rfl
  apply BitVec.eq_of_toNat_eq
  simp only [subtract_eq, hA, hB, result, BitVec.toNat_sub, BitVec.toNat_ofInt]
  omega

theorem inputEvents_eq (s : State) (b : Addr) :
    inputEvents s b = if s.requestsInput b then [.input (s8 s.nextReply)] else [] := by
  simp only [inputEvents, State.requestsInput_iff]
  split
  next h => simp [inValue, h.2, State.nextReply]
  next => rfl

theorem newIp_eq (s : State) (a b c : Addr) :
    newIp s a b c = if branchTaken (result s a b) then c else s.ip + 3#8 := by
  simp only [newIp, branchTaken, decide_eq_true_eq]

theorem State.finish_eq_updateOf_haltOf (s : State) :
    s.finish = { s.countCycle with events := s.events ++ updateOf s.countCycle :: haltOf s.countCycle } := by
  have hhalt : (if s.running then [] else [.halt (s.cyclesExecuted + 1) s.bytesAccessed]) = haltOf s.countCycle := by
    simp only [State.running, runningAt, decide_eq_true_eq]
    rfl
  rw [State.finish_eq, hhalt]
  rfl

/-! ### The state a step leaves -/

/-- The core after `subleq a, b, c` (40_subleq.md R130), with none of the step's transactions recorded yet. -/
def State.subleqCore (s : State) (a b c : Addr) : State :=
  { s with
    mem := if a = Config.addrOut then s.mem else s.mem.write a.toNat (result s a b)
    ip := newIp s a b c
    cyclesExecuted := s.cyclesExecuted + 1
    accessed := [s.ip, s.ip + 1#8, s.ip + 2#8, b, a].foldl AddrSet.insert s.accessed
    inputQueue := if s.requestsInput b then s.inputQueue.tail else s.inputQueue
    inputCount := if s.requestsInput b then s.inputCount + 1 else s.inputCount }

/-- The state after `subleq a, b, c`, with the step's transactions in the order of 60_exceptions.md R188. -/
def State.afterSubleq (s : State) (a b c : Addr) : State :=
  { s.subleqCore a b c with
    events := s.events ++ inputEvents s b ++ [writeEvent s a b] ++
      updateOf (s.subleqCore a b c) :: haltOf (s.subleqCore a b c) }

theorem exec_subleq (s : State) (a b c : Addr) : exec (.subleq a b c) s = .next (s.afterSubleq a b c) := by
  simp only [exec, execSubleq, subtract_eq_result, State.finish_eq_updateOf_haltOf, State.branch_eq,
    State.writeBack_eq, State.afterReadB_eq, State.afterSubleq, State.subleqCore, inputEvents_eq, newIp_eq]
  rfl

theorem step_of_halted {s : State} (h : s.running = false) : step s = .next s := by
  simp [step, h, State.haltedStep]

theorem step_of_fetch {s : State} {a b c : Addr} (hr : s.running = true) (hf : s.fetch = .subleq a b c) :
    step s = .next (s.afterSubleq a b c) := by
  rw [step, if_pos hr, hf, exec_subleq]

/-- What one `step()` can do (10_state.md R28, 40_subleq.md R130). -/
theorem step_cases {s t : State} (h : step s = .next t) :
    (s.running = false ∧ t = s) ∨
      (s.running = true ∧ ∃ a b c, s.fetch = .subleq a b c ∧ t = s.afterSubleq a b c) := by
  cases hr : s.running with
  | false => exact .inl ⟨rfl, Host.Outcome.next.inj (h.symm.trans (step_of_halted hr))⟩
  | true => exact .inr ⟨rfl, _, _, _, rfl, Host.Outcome.next.inj (h.symm.trans (step_of_fetch hr rfl))⟩

end Sys2Proof.Machine
end

section
/-! PROOFS. Halting (10_state.md R26, R28): `running` is a function of `ip`, and a step in Halted is a no-op. -/

namespace Sys2Proof.Machine

theorem State.running_iff (s : State) : s.running = true ↔ s.ip.toNat ≤ 252 := runningAt_iff s.ip

theorem State.halted_iff (s : State) : s.running = false ↔ 253 ≤ s.ip.toNat := by
  rw [← Bool.not_eq_true, State.running_iff]
  omega

/-- Settles O23, from the one bound on `ip` that `runningAt` is. -/
theorem haltConditionIsAFunctionOfIp : Obligations.HaltConditionIsAFunctionOfIp := by
  intro s
  refine ⟨?_, s.running_iff.mpr, s.halted_iff.mpr⟩
  rw [State.running_iff]
  omega

/-- Settles O24, by the halted branch of `step`. -/
theorem haltedStepIsNoOp : Obligations.HaltedStepIsNoOp := fun _ => step_of_halted

end Sys2Proof.Machine
end

section
/-! PROOFS. The two items fixed at construction: the source map (10_state.md R35) and the callback set (R36). A step
reads whether an input callback is attached and nothing else of them; the source map reaches the trace alone. -/

namespace Sys2Proof.Machine
open Sys2Proof.Stated

/-! ### The callback set -/

/-- The callback set enters `subleq` through the input value and the input request alone. -/
theorem State.afterSubleq_withCallbacks {s : State} {cb : Callbacks} (h : cb.input = s.callbacks.input)
    (a b c : Addr) :
    ({ s with callbacks := cb } : State).afterSubleq a b c = { s.afterSubleq a b c with callbacks := cb } := by
  have hin : Stated.inValue { s with callbacks := cb } = Stated.inValue s := by simp only [Stated.inValue, h]
  have hb : bValue { s with callbacks := cb } b = bValue s b := by simp only [bValue, hin]
  have hresult : result { s with callbacks := cb } a b = result s a b := by simp only [result, hb]
  have hreq : State.requestsInput { s with callbacks := cb } b = s.requestsInput b := by
    simp only [State.requestsInput, h]
  have hcore : ({ s with callbacks := cb } : State).subleqCore a b c =
      { s.subleqCore a b c with callbacks := cb } := by
    simp only [State.subleqCore, newIp, hresult, hreq]
  simp only [State.afterSubleq, hcore, inputEvents, writeEvent, hin, hresult, h]
  rfl

theorem step_withCallbacks {s t : State} (h : step s = .next t) {cb : Callbacks}
    (hcb : cb.input = s.callbacks.input) :
    step { s with callbacks := cb } = .next { t with callbacks := cb } := by
  obtain ⟨hr, rfl⟩ | ⟨hr, a, b, c, hf, rfl⟩ := step_cases h
  · exact step_of_halted hr
  · rw [← State.afterSubleq_withCallbacks hcb]
    exact step_of_fetch hr hf

/-- The value an input transaction carries. -/
def Event.inputValue : Event → Option Int
  | .input v => some v
  | _ => none

theorem State.inputs_eq (s : State) : s.inputs = s.events.filterMap Event.inputValue := rfl

theorem inputValue_writeEvent (s : State) (a b : Addr) : (writeEvent s a b).inputValue = none := by
  unfold writeEvent
  split <;> rfl

theorem filterMap_inputValue_haltOf (t : State) : (haltOf t).filterMap Event.inputValue = [] := by
  unfold haltOf
  split <;> rfl

theorem filterMap_inputValue_inputEvents (s : State) (b : Addr) :
    (inputEvents s b).filterMap Event.inputValue =
      if b = 253#8 ∧ s.callbacks.input = true then [s8 (Stated.inValue s)] else [] := by
  unfold inputEvents
  split <;> rfl

theorem State.inputs_afterSubleq (s : State) (a b c : Addr) :
    (s.afterSubleq a b c).inputs =
      s.inputs ++ if b = 253#8 ∧ s.callbacks.input = true then [s8 (Stated.inValue s)] else [] := by
  have hupdate : (updateOf (s.subleqCore a b c)).inputValue = none := rfl
  simp [State.inputs_eq, State.afterSubleq, filterMap_inputValue_inputEvents, inputValue_writeEvent, hupdate,
    filterMap_inputValue_haltOf]

/-- No input device, no input: neither a request nor an answer. -/
theorem step_without_input {s t : State} (h : step s = .next t) (hi : s.callbacks.input = false) :
    t.inputs = s.inputs ∧ t.inputCount = s.inputCount := by
  obtain ⟨-, rfl⟩ | ⟨-, a, b, c, -, rfl⟩ := step_cases h
  · exact ⟨rfl, rfl⟩
  · exact ⟨by simp [State.inputs_afterSubleq, hi],
      by simp [State.afterSubleq, State.subleqCore, State.requestsInput, hi]⟩

theorem step_callbacks {s t : State} (h : step s = .next t) : t.callbacks = s.callbacks := by
  obtain ⟨-, rfl⟩ | ⟨-, a, b, c, -, rfl⟩ := step_cases h <;> rfl

/-- Events no callback receives are not delivered. -/
theorem State.countP_delivered_eq_zero {s : State} {p : Event → Bool}
    (h : ∀ e, p e = true → s.callbacks.receives e = false) : s.delivered.countP p = 0 := by
  rw [List.countP_eq_zero]
  intro e he hp
  have hrec : s.callbacks.receives e = true := List.of_mem_filter he
  simp [h e hp] at hrec

theorem State.delivered_eq_events {s : State} (h : s.callbacks = Callbacks.all) : s.delivered = s.events := by
  refine List.filter_eq_self.mpr fun e _ => ?_
  rw [h]
  cases e <;> rfl

/-- Settles O28: a step commutes with changing the notification callbacks (`step_withCallbacks`), and delivery is a
filter by the callback set. -/
theorem callbacksNeverChangeTransitions : Obligations.CallbacksNeverChangeTransitions := by
  refine ⟨fun s t h => ⟨step_callbacks h, fun cb => step_withCallbacks h, step_without_input h⟩,
    fun s => ⟨fun h => ?_, fun h => ?_, fun h => ?_, fun h => ?_, State.delivered_eq_events⟩⟩
  · exact State.countP_delivered_eq_zero fun | .out _, _ => h
  · exact State.countP_delivered_eq_zero fun | .memWrite _ _, _ => h
  · exact State.countP_delivered_eq_zero fun | .stateUpdated _ _ _ _ _ _, _ => h
  · exact State.countP_delivered_eq_zero fun | .halt _ _, _ => h

/-! ### The source map -/

theorem construct_sourceMap {p : Program} {cb : Callbacks} {replies : List Byte} {s : State}
    (h : construct p cb replies = .next s) : s.sourceMap = p.sourceMap := by
  unfold construct at h
  split at h
  · cases h; rfl
  · cases h

theorem step_sourceMap {s t : State} (h : step s = .next t) : t.sourceMap = s.sourceMap := by
  obtain ⟨-, rfl⟩ | ⟨-, a, b, c, -, rfl⟩ := step_cases h <;> rfl

/-- The map enters a step's events through its one state update, where `eraseLine` removes what came from it. -/
theorem State.eraseLine_afterSubleq_withSourceMap (s : State) (m : SourceMap) (a b c : Addr) :
    (({ s with sourceMap := m } : State).afterSubleq a b c).events.map eraseLine =
      (s.afterSubleq a b c).events.map eraseLine := by
  have hupdate : eraseLine (updateOf (({ s with sourceMap := m } : State).subleqCore a b c)) =
      eraseLine (updateOf (s.subleqCore a b c)) := rfl
  simp only [State.afterSubleq, List.map_append, List.map_cons, hupdate]
  rfl

/-- Settles O29: under another map a step differs in the map and in the erased part of its state updates. -/
theorem sourceMapOnlyTraces : Obligations.SourceMapOnlyTraces := by
  refine ⟨fun _ _ _ _ => construct_sourceMap, fun s t m h => ⟨step_sourceMap h, ?_⟩⟩
  obtain ⟨hr, rfl⟩ | ⟨hr, a, b, c, hf, rfl⟩ := step_cases h
  · exact ⟨_, step_of_halted hr, ⟨rfl, rfl, rfl, rfl⟩, rfl, rfl, rfl, rfl⟩
  · exact ⟨_, step_of_fetch hr hf, ⟨rfl, rfl, rfl, rfl⟩, rfl, rfl, rfl,
      s.eraseLine_afterSubleq_withSourceMap m a b c⟩

end Sys2Proof.Machine
end

section
/-! PROOFS. The operands of a step (20_memory.md R54, R56; 60_exceptions.md R183): the stored byte is subtracted from and
overwritten, or for `a = 254` the difference goes to the output port. -/

namespace Sys2Proof.Machine
open Sys2Proof.Stated

/-! ### The core after a step -/

theorem AddrSet.mem_foldl_insert (l : List Addr) (s : AddrSet) (x : Addr) :
    x ∈ l.foldl AddrSet.insert s ↔ x ∈ l ∨ x ∈ s := by
  induction l generalizing s with
  | nil => simp
  | cons y l ih =>
    rw [List.foldl_cons, ih, AddrSet.mem_insert, List.mem_cons]
    tauto

/-- A step touches its fetched bytes and its operands, and nothing else (10_state.md R32). -/
theorem State.mem_accessed_afterSubleq (s : State) (a b c x : Addr) :
    x ∈ (s.afterSubleq a b c).accessed ↔ x ∈ s.accessed ∨ x ∈ touched s a b := by
  have hfold : x ∈ (s.afterSubleq a b c).accessed ↔
      x ∈ [s.ip, s.ip + 1#8, s.ip + 2#8, b, a] ∨ x ∈ s.accessed := AddrSet.mem_foldl_insert ..
  simp only [hfold, touched, List.mem_cons]
  tauto

theorem State.mem_wf {s : State} (h : s.wf = true) : s.mem.wf = true :=
  (Bool.and_eq_true_iff.mp h).1

theorem State.mem_afterSubleq_output (s : State) (b c : Addr) : (s.afterSubleq 254#8 b c).mem = s.mem := rfl

theorem State.mem_afterSubleq_store (s : State) {a : Addr} (ha : a ≠ 254#8) (b c : Addr) :
    (s.afterSubleq a b c).mem = s.mem.write a.toNat (result s a b) := if_neg ha

theorem State.read_afterSubleq_store {s : State} (hw : s.wf = true) {a : Addr} (ha : a ≠ 254#8) (b c : Addr) :
    (s.afterSubleq a b c).mem.read a.toNat = result s a b := by
  rw [State.mem_afterSubleq_store s ha, Memory.read_write_same (State.mem_wf hw)]

/-! ### The transactions of a step -/

/-- What follows the input request: the write transaction, then notifications (60_exceptions.md R188). -/
theorem State.events_afterSubleq (s : State) (a b c : Addr) :
    (s.afterSubleq a b c).events = s.events ++ inputEvents s b ++
      writeEvent s a b :: updateOf (s.afterSubleq a b c) :: haltOf (s.afterSubleq a b c) := by
  simp only [State.afterSubleq, List.append_assoc, List.cons_append, List.nil_append]
  rfl

theorem countP_isWrite_notifications (t : State) : (updateOf t :: haltOf t).countP Event.isWrite = 0 := by
  unfold haltOf
  split <;> rfl

/-- The value an output transaction carries. -/
def Event.outputValue : Event → Option Int
  | .out v => some v
  | _ => none

theorem State.outputs_eq (s : State) : s.outputs = s.events.filterMap Event.outputValue := rfl

theorem filterMap_outputValue_inputEvents (s : State) (b : Addr) :
    (inputEvents s b).filterMap Event.outputValue = [] := by
  unfold inputEvents
  split <;> rfl

theorem filterMap_outputValue_notifications (t : State) :
    (updateOf t :: haltOf t).filterMap Event.outputValue = [] := by
  unfold haltOf
  split <;> rfl

theorem State.outputs_afterSubleq (s : State) (a b c : Addr) :
    (s.afterSubleq a b c).outputs = s.outputs ++ if a = 254#8 then [s8 (result s a b)] else [] := by
  have hwrite : [writeEvent s a b].filterMap Event.outputValue = if a = 254#8 then [s8 (result s a b)] else [] := by
    unfold writeEvent
    split <;> rfl
  rw [State.outputs_eq, State.outputs_eq, State.events_afterSubleq, List.append_cons]
  simp only [List.filterMap_append, filterMap_outputValue_inputEvents, hwrite, filterMap_outputValue_notifications,
    List.append_nil]

/-! ### The A read (R54) -/

theorem result_eq_sub (s : State) (a b : Addr) : result s a b = s.mem.read a.toNat - bValue s b := by
  rw [← subtract_eq_result, subtract_eq]
  rfl

/-- `subleq` subtracts the B value from the stored byte at `a`, for every `a`. -/
theorem State.stepGives_afterSubleq {s : State} (hw : s.wf = true) (a b c : Addr) :
    stepGives s (s.afterSubleq a b c) a (bValue s b) := by
  refine ⟨fun ha => ⟨?_, ?_⟩, fun ha => ?_⟩
  · rw [State.read_afterSubleq_store hw ha, result_eq_sub]
  · rw [State.outputs_afterSubleq, if_neg ha, List.append_nil]
  · subst ha
    refine ⟨s.mem_afterSubleq_output b c, ?_⟩
    rw [State.outputs_afterSubleq, if_pos rfl, result_eq_sub]
    rfl

/-- Settles O12: the step's result comes from the stored byte (`stepGives_afterSubleq`), and its inputs are those of the B
read (`inputs_afterSubleq`). -/
theorem operandAReadsTheStoredByte : Obligations.OperandAReadsTheStoredByte := fun s a b c hw _ =>
  ⟨rfl, s.afterSubleq a b c, exec_subleq s a b c, State.stepGives_afterSubleq hw a b c, s.inputs_afterSubleq a b c⟩

/-! ### The write-back (R56, R183) -/

theorem s8_bounds (u : Byte) : -128 ≤ s8 u ∧ s8 u ≤ 127 := by
  rw [s8_eq_toInt]
  exact ⟨BitVec.le_toInt u, Int.le_of_lt_add_one BitVec.toInt_lt⟩

theorem exec_withoutOutput (s : State) (a b c : Addr) :
    exec (.subleq a b c) (withoutOutput s) = .next (withoutOutput (s.afterSubleq a b c)) := by
  have hinput : (withoutOutput s).callbacks.input = s.callbacks.input := rfl
  have hstate : (withoutOutput s).afterSubleq a b c = withoutOutput (s.afterSubleq a b c) :=
    State.afterSubleq_withCallbacks hinput a b c
  rw [exec_subleq, hstate]

theorem out_notMem_delivered_withoutOutput (s : State) (v : Int) : .out v ∉ (withoutOutput s).delivered := by
  intro h
  have hreceived : (withoutOutput s).callbacks.receives (.out v) = true := List.of_mem_filter h
  exact Bool.false_ne_true hreceived

/-- Settles O14: the write transaction of the closed-form step is the output for `a = 254` and the memory write for any
other `a`, and only notifications follow it. -/
theorem writeBackStoresOrOutputs : Obligations.WriteBackStoresOrOutputs := by
  intro s a b c hw _
  have htouched : a ∈ (s.afterSubleq a b c).accessed :=
    (s.mem_accessed_afterSubleq a b c a).mpr (.inr (by simp [touched]))
  obtain ⟨hlo, hhi⟩ := s8_bounds (result s a b)
  refine ⟨s.afterSubleq a b c, exec_subleq s a b c, htouched, hlo, hhi, fun ha => ⟨?_, ?_⟩, fun ha => ⟨?_, ?_⟩,
    exec_withoutOutput s a b c, out_notMem_delivered_withoutOutput _⟩
  · rw [ha, State.mem_afterSubleq_output]
  · have hwrite : writeEvent s a b = .out (s8 (result s a b)) := if_pos ha
    exact ⟨_, hwrite ▸ s.events_afterSubleq a b c, countP_isWrite_notifications _⟩
  · exact State.read_afterSubleq_store hw ha b c
  · have hwrite : writeEvent s a b = .memWrite a (result s a b) := if_neg ha
    exact ⟨_, hwrite ▸ s.events_afterSubleq a b c, countP_isWrite_notifications _⟩

end Sys2Proof.Machine
end

section
/-! PROOFS. The decoder takes three bytes, whatever they are (30_encoding.md R85, R87). -/

namespace Sys2Proof

theorem decode_cons_cons_cons (x y z : Byte) (rest : List Byte) :
    decode (x :: y :: z :: rest) = .ok (.subleq x y z, rest) := rfl

theorem decode_of_length_lt_three {bs : List Byte} (h : bs.length < 3) : decode bs = .error (.truncated bs.length) := by
  match bs with
  | [] | [_] | [_, _] => rfl
  | _ :: _ :: _ :: _ => simp only [List.length_cons] at h; omega

/-- Settles O5, by whether the list holds three bytes. -/
theorem decoderAlwaysTakesThreeBytes : Obligations.DecoderAlwaysTakesThreeBytes := by
  refine fun bs => ⟨fun h => ?_, decode_of_length_lt_three⟩
  match bs with
  | x :: y :: z :: rest => exact ⟨.subleq x y z, decode_cons_cons_cons x y z rest, rfl⟩
  | [] | [_] | [_, _] => simp at h

end Sys2Proof
end

section
/-! PROOFS. Operands and emission in pass one (30_encoding.md R97-R100): what a literal and a symbol resolve to, and what a
`subleq` or `.data` line makes of its resolved operands. -/

namespace Sys2Proof.Machine

/-! ### One operand -/

theorem resolveOperand_literal_inRange (symbols : Symbols) {range : Int × Int} {v : Int} (hlo : range.1 ≤ v)
    (hhi : v ≤ range.2) : resolveOperand symbols range (.literal v) = some (.resolved (u8 v)) :=
  if_pos ⟨hlo, hhi⟩

theorem resolveOperand_literal_outOfRange (symbols : Symbols) {range : Int × Int} {v : Int}
    (h : v < range.1 ∨ range.2 < v) : resolveOperand symbols range (.literal v) = none :=
  if_neg (by omega)

theorem resolveOperand_symbol_bound {symbols : Symbols} {name : Text} {a : Addr}
    (h : lookupSymbol symbols name = some a) (range : Int × Int) (offset : Int) :
    resolveOperand symbols range (.symbol name offset) = some (.resolved (symbolByte a offset)) := by
  simp only [resolveOperand, h]

theorem resolveOperand_symbol_unbound {symbols : Symbols} {name : Text} (h : lookupSymbol symbols name = none)
    (range : Int × Int) (offset : Int) :
    resolveOperand symbols range (.symbol name offset) = some (.pending name offset) := by
  simp only [resolveOperand, h]

theorem u8_toNat (b : Byte) : u8 b.toNat = b := by
  rw [u8, BitVec.ofInt_natCast, BitVec.ofNat_toNat, BitVec.setWidth_eq]

/-- Every byte can be written as an address literal. -/
theorem resolveOperand_byte (symbols : Symbols) (b : Byte) :
    resolveOperand symbols Config.addressRange (.literal b.toNat) = some (.resolved b) := by
  have hhi : (b.toNat : Int) ≤ Config.addressRange.2 := by
    simp only [Config.addressRange]
    omega
  rw [resolveOperand_literal_inRange symbols (Int.natCast_nonneg _) hhi, u8_toNat]

theorem toNat_symbolByte (a : Addr) (offset : Int) : ((symbolByte a offset).toNat : Int) = (a.toNat + offset) % 256 :=
  toNat_u8 _

theorem symbolByte_zero (a : Addr) : symbolByte a 0 = a := by
  rw [symbolByte, Int.add_zero, u8_toNat]

/-! ### The operands of a line -/

theorem resolveOperands_of_forall₂ {symbols : Symbols} {range : Int × Int} {ops : List SourceOperand}
    {vs : List Emitted} (h : List.Forall₂ (fun e v => resolveOperand symbols range e = some v) ops vs) :
    resolveOperands symbols range ops = some vs := by
  induction h with
  | nil => rfl
  | cons hv _ ih => simp only [resolveOperands, hv, ih, Option.map_some]

/-- One operand out of range fails the whole line's operands. -/
theorem resolveOperands_eq_none {symbols : Symbols} {range : Int × Int} {ops : List SourceOperand}
    {e : SourceOperand} (hmem : e ∈ ops) (h : resolveOperand symbols range e = none) :
    resolveOperands symbols range ops = none := by
  induction hmem with
  | head => simp only [resolveOperands, h]
  | tail _ _ ih =>
    rw [resolveOperands, ih]
    split <;> rfl

/-! ### The instruction and the directive -/

theorem assembleSubleq_three (line p : Nat) (text : Text) {symbols : Symbols} {ops : List SourceOperand}
    {vs : List Emitted} (hlen : ops.length = 3) (h : resolveOperands symbols Config.addressRange ops = some vs) :
    assembleSubleq line text p symbols ops = .ok vs := by
  simp [assembleSubleq, hlen, h]

theorem assembleSubleq_outOfRange (line p : Nat) (text : Text) {symbols : Symbols} {ops : List SourceOperand}
    (hlen : ops.length = 2 ∨ ops.length = 3) (h : resolveOperands symbols Config.addressRange ops = none) :
    assembleSubleq line text p symbols ops = .error (.rangeError line text) := by
  simp only [assembleSubleq, mem_subleqOperandCounts, if_pos hlen, h]

theorem assembleData_outOfRange (line : Nat) (text : Text) {symbols : Symbols} {ops : List SourceOperand}
    (hlen : ops.length = 1) (h : resolveOperands symbols Config.valueRange ops = none) :
    assembleData line text symbols ops = .error (.rangeError line text) := by
  simp only [assembleData, mem_dataOperandCounts, if_pos hlen, h]

theorem assembleBody_subleq (line : Nat) (text : Text) (st : AsmState) (ops : List SourceOperand) :
    assembleBody line text st (some (nameSubleq, ops)) =
      (assembleSubleq line text st.emitted.length st.symbols ops).bind (emitValues line text st) := by
  simp only [assembleBody, if_true]
  split <;> next h => rw [h]; rfl

theorem assembleBody_data (line : Nat) (text : Text) (st : AsmState) (ops : List SourceOperand) :
    assembleBody line text st (some (nameData, ops)) =
      (assembleData line text st.symbols ops).bind (emitValues line text st) := by
  have hname : nameData ≠ nameSubleq := by decide
  simp only [assembleBody, if_neg hname, if_true]
  split <;> next h => rw [h]; rfl

theorem emitValues_of_fits (line : Nat) (text : Text) {st : AsmState} {vs : List Emitted}
    (h : st.emitted.length + vs.length ≤ Config.memSize) :
    ∃ st', emitValues line text st vs = .ok st' ∧ st'.emitted = st.emitted ++ vs :=
  ⟨_, if_pos h, rfl⟩

/-- A `subleq` of three operands that fits emits what they resolve to (R97). -/
theorem assembleBody_subleq_three (line : Nat) (text : Text) {st : AsmState} {ops : List SourceOperand}
    {vs : List Emitted} (hlen : ops.length = 3) (hroom : st.emitted.length + 3 ≤ Config.memSize)
    (h : List.Forall₂ (fun e v => resolveOperand st.symbols Config.addressRange e = some v) ops vs) :
    ∃ st', assembleBody line text st (some (nameSubleq, ops)) = .ok st' ∧ st'.emitted = st.emitted ++ vs := by
  rw [assembleBody_subleq, assembleSubleq_three _ _ _ hlen (resolveOperands_of_forall₂ h)]
  exact emitValues_of_fits line text (by rw [← h.length_eq, hlen]; exact hroom)

/-- Settles O42: both clauses are `assembleBody_subleq_three`, with `resolveOperand_byte` for the literal operands. -/
theorem subleqEmitsItsThreeOperands : Obligations.SubleqEmitsItsThreeOperands := by
  refine fun line text st hroom => ⟨fun x y z a b c hx hy hz => ?_, fun a b c => ?_⟩
  · obtain ⟨st', hok, hemitted⟩ :=
      assembleBody_subleq_three line text rfl hroom (.cons hx (.cons hy (.cons hz .nil)))
    exact ⟨st', hok, hemitted, by rw [hemitted, List.length_append]; rfl⟩
  · have hbyte := resolveOperand_byte st.symbols
    exact assembleBody_subleq_three line text rfl hroom (.cons (hbyte a) (.cons (hbyte b) (.cons (hbyte c) .nil)))

/-! ### Range checks (R99) -/

theorem assembleBody_subleq_outOfRange (line : Nat) (text : Text) (st : AsmState) {ops : List SourceOperand} {v : Int}
    (hlen : ops.length = 2 ∨ ops.length = 3) (hmem : .literal v ∈ ops) (hv : v < 0 ∨ 255 < v) :
    assembleBody line text st (some (nameSubleq, ops)) = .error (.rangeError line text) := by
  have hnone := resolveOperands_eq_none hmem
    (resolveOperand_literal_outOfRange st.symbols (range := Config.addressRange) hv)
  rw [assembleBody_subleq, assembleSubleq_outOfRange _ _ _ hlen hnone]
  rfl

theorem assembleBody_data_outOfRange (line : Nat) (text : Text) (st : AsmState) {v : Int} (hv : v < -128 ∨ 127 < v) :
    assembleBody line text st (some (nameData, [.literal v])) = .error (.rangeError line text) := by
  have hnone := resolveOperands_eq_none (List.mem_singleton_self _)
    (resolveOperand_literal_outOfRange st.symbols (range := Config.valueRange) hv)
  rw [assembleBody_data, assembleData_outOfRange _ _ rfl hnone]
  rfl

/-- Settles O45: one literal out of range fails its line, and one in range is the byte `u8 v`, whose value in its class is
`v`. -/
theorem literalsAreRangeChecked : Obligations.LiteralsAreRangeChecked := by
  refine ⟨fun line text st ops hlen ⟨v, hmem, hv⟩ => assembleBody_subleq_outOfRange line text st hlen hmem hv,
    fun line text st v => assembleBody_data_outOfRange line text st,
    fun symbols v hlo hhi => ⟨u8 v, resolveOperand_literal_inRange symbols hlo hhi, ?_⟩,
    fun symbols v hlo hhi => ⟨u8 v, resolveOperand_literal_inRange symbols hlo hhi, s8_u8 hlo hhi⟩,
    fun symbols => resolveOperand_literal_inRange symbols (by decide) (by decide)⟩
  rw [toNat_u8, Int.emod_eq_of_lt hlo (by omega)]

end Sys2Proof.Machine
end

section
/-! PROOFS. The two passes and the symbol table (30_encoding.md R100-R102): pass one only lengthens the table, pass two
resolves each emitted value in order, and fails exactly on an unbound reference. -/

namespace Sys2Proof.Machine

/-! ### One emitted value in pass two -/

theorem resolveEmitted_pending_bound {symbols : Symbols} {name : Text} {a : Addr}
    (h : lookupSymbol symbols name = some a) (offset : Int) :
    resolveEmitted symbols (.pending name offset) = .ok (symbolByte a offset) := by
  simp only [resolveEmitted, h]

theorem resolveEmitted_pending_unbound {symbols : Symbols} {name : Text} (h : lookupSymbol symbols name = none)
    (offset : Int) : resolveEmitted symbols (.pending name offset) = .error (.undefinedReference name) := by
  simp only [resolveEmitted, h]

/-- The one way a value fails in pass two. -/
theorem resolveEmitted_error {symbols : Symbols} {e : Emitted} {err : AsmError}
    (h : resolveEmitted symbols e = .error err) :
    ∃ name offset, e = .pending name offset ∧ lookupSymbol symbols name = none ∧ err = .undefinedReference name := by
  cases e with
  | resolved v => cases h
  | pending name offset =>
    cases hl : lookupSymbol symbols name with
    | some a => cases (resolveEmitted_pending_bound hl offset).symm.trans h
    | none => exact ⟨name, offset, rfl, hl, Except.error.inj (h.symm.trans (resolveEmitted_pending_unbound hl offset))⟩

/-- Settles O46: in both passes the byte is `symbolByte`, whose value is the sum modulo 256. -/
theorem symbolOperandsWrap : Obligations.SymbolOperandsWrap :=
  ⟨fun _ range _ offset a h => ⟨symbolByte a offset, resolveOperand_symbol_bound h range offset,
    resolveEmitted_pending_bound h offset, toNat_symbolByte a offset⟩, symbolByte_zero, by decide⟩

/-! ### Pass two over the emitted values -/

theorem passTwo_forall₂ {symbols : Symbols} {es : List Emitted} {bs : List Byte} (h : passTwo symbols es = .ok bs) :
    List.Forall₂ (fun e b => resolveEmitted symbols e = .ok b) es bs := by
  induction es generalizing bs with
  | nil => cases h; exact .nil
  | cons e es ih =>
    simp only [passTwo] at h
    split at h
    · cases h
    · next v hv =>
      split at h
      · cases h
      · next vs hvs => cases h; exact .cons hv (ih hvs)

theorem passTwo_error {symbols : Symbols} {es : List Emitted} {err : AsmError} (h : passTwo symbols es = .error err) :
    ∃ e ∈ es, resolveEmitted symbols e = .error err := by
  induction es with
  | nil => cases h
  | cons e es ih =>
    simp only [passTwo] at h
    split at h
    · next he => cases h; exact ⟨e, List.mem_cons_self, he⟩
    · split at h
      · next hes =>
        cases h
        obtain ⟨e', hmem, he'⟩ := ih hes
        exact ⟨e', List.mem_cons_of_mem e hmem, he'⟩
      · cases h

/-- The error of pass two names the symbol of an unbound reference (R102). -/
theorem passTwo_error_unbound {symbols : Symbols} {es : List Emitted} {err : AsmError}
    (h : passTwo symbols es = .error err) :
    ∃ name offset, .pending name offset ∈ es ∧ lookupSymbol symbols name = none ∧ err = .undefinedReference name := by
  obtain ⟨e, hmem, he⟩ := passTwo_error h
  obtain ⟨name, offset, rfl, hnone, rfl⟩ := resolveEmitted_error he
  exact ⟨name, offset, hmem, hnone, rfl⟩

/-- No pending reference to an unbound symbol survives a successful pass two (R102). -/
theorem lookupSymbol_ne_none_of_passTwo {symbols : Symbols} {es : List Emitted} {bs : List Byte}
    (h : passTwo symbols es = .ok bs) {name : Text} {offset : Int} (hmem : .pending name offset ∈ es) :
    lookupSymbol symbols name ≠ none := by
  intro hnone
  obtain ⟨i, hi, he⟩ := List.mem_iff_getElem.mp hmem
  have hi' : i < bs.length := by rwa [passTwo_length h]
  have hok := (List.forall₂_iff_get.mp (passTwo_forall₂ h)).2 i hi hi'
  simp only [List.get_eq_getElem, he] at hok
  cases (resolveEmitted_pending_unbound hnone offset).symm.trans hok

/-! ### The symbol table only grows -/

theorem assembleLine_symbols_isPrefix {line : Nat} {text : Text} {st st' : AsmState}
    (h : assembleLine line text st = .ok st') : st.symbols <+: st'.symbols := by
  obtain ⟨p, bound, -, hlabel, hbody⟩ := assembleLine_ok h
  have hbound : st.symbols <+: bound.symbols := by
    obtain ⟨-, rfl⟩ | ⟨name, -, -, -, rfl⟩ := bindLabel_ok hlabel
    · exact List.prefix_rfl
    · exact List.prefix_append _ _
  have hsame : st'.symbols = bound.symbols := by
    obtain ⟨-, rfl⟩ | ⟨name, ops, vs, -, hemit, -⟩ := assembleBody_ok hbody
    · rfl
    · exact (emitValues_ok hemit).2.2.1
  rwa [hsame]

theorem passOne_cons_ok {line : Nat} {text : Text} {rest : List Text} {st st' : AsmState}
    (h : passOne line (text :: rest) st = .ok st') :
    ∃ mid, assembleLine line text st = .ok mid ∧ passOne (line + 1) rest mid = .ok st' := by
  simp only [passOne] at h
  split at h
  · cases h
  · next mid hmid => exact ⟨mid, hmid, h⟩

theorem passOne_symbols_isPrefix {line : Nat} {lines : List Text} {st st' : AsmState}
    (h : passOne line lines st = .ok st') : st.symbols <+: st'.symbols := by
  induction lines generalizing line st with
  | nil => cases h; exact List.prefix_rfl
  | cons text rest ih =>
    obtain ⟨mid, hline, hrest⟩ := passOne_cons_ok h
    exact (assembleLine_symbols_isPrefix hline).trans (ih hrest)

theorem lookupSymbol_of_isPrefix {symbols longer : Symbols} (hp : symbols <+: longer) {name : Text} {a : Addr}
    (h : lookupSymbol symbols name = some a) : lookupSymbol longer name = some a := by
  obtain ⟨more, rfl⟩ := hp
  exact lookupSymbol_append h

/-- What pass one makes of a symbol operand has the byte that a pending reference has under any longer table (R101). -/
theorem resolveEmitted_of_isPrefix {symbols longer : Symbols} (hp : symbols <+: longer) {range : Int × Int} {name : Text}
    {offset : Int} {v : Emitted} (h : resolveOperand symbols range (.symbol name offset) = some v) :
    resolveEmitted longer v = resolveEmitted longer (.pending name offset) := by
  cases hl : lookupSymbol symbols name with
  | some a =>
    cases (resolveOperand_symbol_bound hl range offset).symm.trans h
    rw [resolveEmitted_pending_bound (lookupSymbol_of_isPrefix hp hl)]
    rfl
  | none =>
    cases (resolveOperand_symbol_unbound hl range offset).symm.trans h
    rfl

/-- Settles O47: the table of pass one only grows (`passOne_symbols_isPrefix`), so resolving early and resolving late give
one byte (`resolveEmitted_of_isPrefix`). -/
theorem labelResolutionIsOrderIndependent : Obligations.LabelResolutionIsOrderIndependent :=
  ⟨fun _ range _ offset h => resolveOperand_symbol_unbound h range offset, fun _ _ _ => passTwo_forall₂,
    fun _ _ _ _ _ _ _ hafter _ _ _ _ => resolveEmitted_of_isPrefix (passOne_symbols_isPrefix hafter)⟩

/-! ### The assembler's answer -/

/-- The program made of pass one's state and pass two's bytes (R90). -/
def AsmState.program (st : AsmState) (bytes : List Byte) : Program :=
  ⟨bytes.map (fun b => (b.toNat : Int)), st.sourceMap, listedSymbols st.symbols⟩

/-- Once pass one has succeeded, pass two decides the answer. -/
theorem assemble_of_passOne {base : Fin 2} {lines : List Text} {st : AsmState}
    (h : passOne base.val lines asmStart = .ok st) :
    assemble base lines = (passTwo st.symbols st.emitted).map st.program := by
  simp only [assemble, h]
  split <;> next hpass => rw [hpass]; rfl

/-- Settles O48: the answer is pass two's (`assemble_of_passOne`), which fails only on an unbound reference
(`passTwo_error_unbound`) and never passes over one (`lookupSymbol_ne_none_of_passTwo`). -/
theorem unboundSymbolIsUndefinedReference : Obligations.UnboundSymbolIsUndefinedReference := by
  intro base lines st h
  rw [assemble_of_passOne h]
  cases hpass : passTwo st.symbols st.emitted with
  | error err =>
    obtain ⟨name, offset, hmem, hnone, rfl⟩ := passTwo_error_unbound hpass
    exact ⟨fun _ => ⟨name, offset, hmem, hnone, rfl⟩, fun hbound => absurd hnone (hbound name offset hmem), nofun⟩
  | ok bytes =>
    refine ⟨fun ⟨name, offset, hmem, hnone⟩ => absurd hnone (lookupSymbol_ne_none_of_passTwo hpass hmem),
      fun _ => ⟨st.program bytes, rfl, ?_⟩, fun p hp => ?_⟩
    · rw [AsmState.program, List.length_map, passTwo_length hpass]
    · cases hp
      exact List.forall₂_map_right_iff.mpr ((passTwo_forall₂ hpass).imp fun _ b hb => ⟨b, hb, rfl⟩)

end Sys2Proof.Machine
end

section
/-! PROOFS. Control transfer (40_subleq.md R135, R84) and the end of a step (R136): the new `ip` of the closed-form step,
the fetch that follows it, and the notifications read off the state it leaves. -/

namespace Sys2Proof.Machine
open Sys2Proof.Stated

/-! ### The new `ip` -/

theorem State.ip_afterSubleq (s : State) (a b c : Addr) : (s.afterSubleq a b c).ip = newIp s a b c := rfl

theorem newIp_of_nonpos {s : State} {a b : Addr} (h : s8 (result s a b) ≤ 0) (c : Addr) : newIp s a b c = c := if_pos h

theorem newIp_of_pos {s : State} {a b : Addr} (h : 0 < s8 (result s a b)) (c : Addr) : newIp s a b c = s.ip + 3#8 :=
  if_neg (Int.not_le.mpr h)

/-- While Running, the bytes at `ip` to `ip + 2` and the fall-through address lie in memory: `ip` does not wrap (R26). -/
theorem State.toNat_ip_add {s : State} (hr : s.running = true) {k : Addr} (hk : k.toNat ≤ 3) :
    (s.ip + k).toNat = s.ip.toNat + k.toNat := by
  have hip : s.ip.toNat ≤ 252 := s.running_iff.mp hr
  exact BitVec.toNat_add_of_lt (by omega)

/-- A target equal to the fall-through address is reached whether the branch is taken or not. -/
theorem newIp_fallThrough {s : State} (hr : s.running = true) (a b : Addr) {c : Addr} (hc : c.toNat = s.ip.toNat + 3) :
    newIp s a b c = c := by
  have hnext : s.ip + 3#8 = c := BitVec.eq_of_toNat_eq ((State.toNat_ip_add hr (by decide)).trans hc.symm)
  rw [newIp, hnext, ite_self]

/-! ### The next fetch -/

theorem State.fetch_of_running {s : State} (hr : s.running = true) :
    s.fetch =
      .subleq (s.mem.read s.ip.toNat) (s.mem.read (s.ip.toNat + 1)) (s.mem.read (s.ip.toNat + 2)) := by
  have h1 : (s.ip + 1#8).toNat = s.ip.toNat + 1 := State.toNat_ip_add hr (by decide)
  have h2 : (s.ip + 2#8).toNat = s.ip.toNat + 2 := State.toNat_ip_add hr (by decide)
  rw [State.fetch, decodeBytes, State.memRead_eq, State.memRead_eq, State.memRead_eq, h1, h2]

theorem step_of_running {s : State} (hr : s.running = true) : step s = exec s.fetch s := if_pos hr

/-- Settles O15: the new `ip` of the closed-form step is `newIp`, which is `c` when the branch is taken and the
fall-through address when not, and the next step fetches there (`fetch_of_running`). -/
theorem controlTransferIsAbsolute : Obligations.ControlTransferIsAbsolute := by
  intro s a b c hr
  refine ⟨s.afterSubleq a b c, exec_subleq s a b c, fun htaken => newIp_of_nonpos htaken c, fun hnot => ?_,
    newIp_fallThrough hr a b, fun htaken hc => ?_, fun hr' => ?_⟩
  · rw [State.ip_afterSubleq, newIp_of_pos hnot]
    exact State.toNat_ip_add hr (by decide)
  · rw [State.halted_iff, State.ip_afterSubleq, newIp_of_nonpos htaken]
    exact hc
  · rw [step_of_running hr', State.fetch_of_running hr']

/-! ### The notifications -/

theorem updateOf_eq (t : State) :
    updateOf t = .stateUpdated t.running t.ip (lineOf t.sourceMap t.ip) (textOf t.sourceMap t.ip) t.cyclesExecuted
      t.bytesAccessed := rfl

theorem haltOf_eq (t : State) :
    haltOf t = if t.running = true then [] else [.halt t.cyclesExecuted t.bytesAccessed] := by
  simp only [State.running, runningAt, decide_eq_true_eq]
  rfl

/-- Before its notifications a step issues only inputs and one write, so a kind of event that is neither does not occur. -/
theorem countP_transactions_eq_zero (s : State) (a b : Addr) {p : Event → Bool} (hinput : ∀ v, p (.input v) = false)
    (hout : ∀ v, p (.out v) = false) (hwrite : ∀ A v, p (.memWrite A v) = false) :
    (inputEvents s b ++ [writeEvent s a b]).countP p = 0 := by
  have hi : (inputEvents s b).countP p = 0 := by
    unfold inputEvents
    split <;> simp [hinput]
  have hw : [writeEvent s a b].countP p = 0 := by
    unfold writeEvent
    split <;> simp [hout, hwrite]
  rw [List.countP_append, hi, hw]

/-- Settles O16: after its transactions the closed-form step sends `updateOf` and `haltOf` of the state it leaves. -/
theorem stepEndsWithCountersAndNotifications : Obligations.StepEndsWithCountersAndNotifications := by
  intro s a b c _
  refine ⟨s.afterSubleq a b c, exec_subleq s a b c, rfl, rfl, inputEvents s b ++ [writeEvent s a b],
    countP_transactions_eq_zero s a b (fun _ => rfl) (fun _ => rfl) (fun _ _ => rfl),
    countP_transactions_eq_zero s a b (fun _ => rfl) (fun _ => rfl) (fun _ _ => rfl), ?_⟩
  rw [← haltOf_eq, ← updateOf_eq, State.events_afterSubleq, List.append_cons, List.append_assoc s.events]

end Sys2Proof.Machine
end

section
/-! PROOFS. The halt notification (60_exceptions.md R185): the one place where it is sent is the end of a halting step,
and construction, which leaves the core Running, issues memory writes and one state update only (70_reset_and_hazards.md
R201). -/

namespace Sys2Proof.Machine

/-! ### The halt notifications of a step -/

/-- The events of a step of a Running core: no halt notification before its state update, and one after it exactly if
the core is then Halted (R136). -/
theorem step_events_of_running {s t : State} (hr : s.running = true) (h : step s = .next t) :
    ∃ before, before.countP Event.isHalt = 0 ∧
      t.events = s.events ++ before ++
        .stateUpdated t.running t.ip (lineOf t.sourceMap t.ip) (textOf t.sourceMap t.ip) t.cyclesExecuted
          t.bytesAccessed ::
        (if t.running = true then [] else [.halt t.cyclesExecuted t.bytesAccessed]) := by
  rw [step_of_running hr, State.fetch_of_running hr] at h
  obtain ⟨t', hexec, -, -, before, -, hhalt, hevents⟩ := stepEndsWithCountersAndNotifications s _ _ _ hr
  obtain rfl : t' = t := Host.Outcome.next.inj (hexec.symm.trans h)
  exact ⟨before, hhalt, hevents⟩

theorem step_events_of_halting {s t : State} (hr : s.running = true) (h : step s = .next t) (ht : t.running = false) :
    ∃ before, before.countP Event.isHalt = 0 ∧
      t.events = s.events ++ before ++
        [.stateUpdated false t.ip (lineOf t.sourceMap t.ip) (textOf t.sourceMap t.ip) t.cyclesExecuted t.bytesAccessed,
          .halt t.cyclesExecuted t.bytesAccessed] := by
  simpa [ht] using step_events_of_running hr h

theorem step_events_of_not_halting {s t : State} (h : step s = .next t) (hst : t.running = true ∨ s.running = false) :
    ∃ more, more.countP Event.isHalt = 0 ∧ t.events = s.events ++ more := by
  cases hs : s.running with
  | false =>
    obtain rfl : s = t := Host.Outcome.next.inj ((step_of_halted hs).symm.trans h)
    exact ⟨[], rfl, (List.append_nil _).symm⟩
  | true =>
    have ht : t.running = true := hst.resolve_right (by simp [hs])
    obtain ⟨before, hhalt, hevents⟩ := step_events_of_running hs h
    rw [if_pos ht, List.append_assoc] at hevents
    exact ⟨_, by rw [List.countP_append, hhalt]; rfl, hevents⟩

/-! ### Construction -/

/-- A construction that is not refused leaves the construction state (R201). -/
theorem eq_constructed_of_construct {p : Program} {cb : Callbacks} {replies : List Byte} {s : State}
    (h : construct p cb replies = .next s) : s = constructed p cb replies := by
  unfold construct at h
  split at h
  · exact (Host.Outcome.next.inj h).symm
  · cases h

theorem countP_isHalt_constructionEvents (mem : Memory) (m : SourceMap) :
    (constructionEvents mem m).countP Event.isHalt = 0 := by
  have hload : ((List.range Config.memSize).map
      fun A => Event.memWrite (BitVec.ofNat 8 A) (mem.read A)).countP Event.isHalt = 0 := by
    rw [List.countP_eq_zero, List.forall_mem_map]
    exact fun _ _ => Bool.false_ne_true
  rw [constructionEvents, List.countP_append, hload]
  rfl

/-- Settles O25: a step of a Running core ends as R136 says (`step_events_of_running`), a step of a Halted one sends
nothing, and construction sends no halt notification. -/
theorem haltNotifiedInTheHaltingStep : Obligations.HaltNotifiedInTheHaltingStep := by
  refine ⟨fun _ _ => step_events_of_halting, fun _ _ => step_events_of_not_halting,
    fun p cb replies s h => ?_⟩
  obtain rfl := eq_constructed_of_construct h
  exact ⟨rfl, countP_isHalt_constructionEvents _ _⟩

end Sys2Proof.Machine
end

section
/-! PROOFS. Encoding and decoding agree (30_encoding.md R80-R85) on bytes, on the 24-bit pattern and on a table word; a
word placed from outside is what the next step runs (log entry 3). -/

namespace Sys2Proof

theorem decode_encode (i : Instr) (rest : List Byte) : decode (encode i ++ rest) = .ok (i, rest) := by
  cases i
  rfl

/-! ### The 24-bit pattern (R82) -/

theorem decodeInsn24_insn24 (i : Instr) : decodeInsn24 (insn24 i) = i := by
  obtain ⟨a, b, c⟩ := i
  have ha : (a ++ b ++ c).extractLsb' 16 8 = a :=
    (BitVec.extractLsb'_append_eq_of_le (by decide)).trans BitVec.extractLsb'_append_eq_left
  have hb : (a ++ b ++ c).extractLsb' 8 8 = b :=
    (BitVec.extractLsb'_append_eq_of_le (by decide)).trans BitVec.extractLsb'_append_eq_right
  have hc : (a ++ b ++ c).extractLsb' 0 8 = c := BitVec.extractLsb'_append_eq_right
  rw [insn24, decodeInsn24, ha, hb, hc]

theorem insn24_decodeInsn24 (w : BitVec 24) : insn24 (decodeInsn24 w) = w := by
  have hab : w.extractLsb' 16 8 ++ w.extractLsb' 8 8 = w.extractLsb' 8 16 :=
    BitVec.extractLsb'_append_extractLsb'_eq_extractLsb' rfl
  rw [decodeInsn24, insn24, hab]
  exact BitVec.extractLsb'_append_extractLsb' (w := 16) (len := 8)

/-! ### Table words (log entry 4) -/

theorem encode_decodeInsn24 (w : BitVec 24) : encode (decodeInsn24 w) = tableBytes 24 w.toNat := by
  simp only [decodeInsn24, encode, tableBytes, Nat.mod_eq_of_lt w.isLt, BitVec.extractLsb', Nat.shiftRight_eq_div_pow,
    Nat.reducePow, Nat.div_one]

theorem decodeTableWord_of_tableBytes {nbits w : Nat} (hn : nbits ≤ 24) {i : Instr} (h : tableBytes nbits w = encode i) :
    decodeTableWord nbits w = some i := by
  have hdecode : decode (encode i) = .ok (i, []) := decode_encode i []
  rw [decodeTableWord, if_pos hn, h, hdecode]

theorem decodeTableWord_toNat (w : BitVec 24) : decodeTableWord 24 w.toNat = some (decodeInsn24 w) :=
  decodeTableWord_of_tableBytes (Nat.le_refl 24) (encode_decodeInsn24 w).symm

/-- Settles O6: on bytes decoding undoes encoding, the 24-bit pattern is a bijection, and a table word's bytes are those
of its pattern (`encode_decodeInsn24`). -/
theorem decodeAndEncodeAgree : Obligations.DecodeAndEncodeAgree := by
  refine ⟨fun i _ => ⟨decode_encode i, decodeInsn24_insn24 i, ?_⟩,
    fun w => ⟨insn24_decodeInsn24 w, encode_decodeInsn24 w, decodeTableWord_toNat w⟩⟩
  rw [decodeTableWord_toNat, decodeInsn24_insn24]

/-- Settles O7: the table words are numerals whose pattern is read by `decodeTableWord_toNat`. -/
theorem writtenOutWordsDecode : Obligations.WrittenOutWordsDecode :=
  ⟨decode_cons_cons_cons .., decode_cons_cons_cons .., decodeTableWord_toNat 0b111111101111110100000011#24,
    decodeTableWord_toNat 0b000011010000110111111111#24⟩

end Sys2Proof

namespace Sys2Proof.Machine

/-! ### The instruction at `ip` -/

/-- Settles O8: while Running the bytes decoded are those of the fetch (`fetch_of_running`). -/
theorem stepRunsDecodedInstruction : Obligations.StepRunsDecodedInstruction := by
  intro s i hr _ hdecode
  have hfetch : s.fetch = i := by
    rw [State.fetch_of_running hr]
    exact congrArg Prod.fst (Except.ok.inj hdecode)
  rw [step_of_running hr, hfetch]

theorem State.placeIp_le (s : State) : s.placeIp.toNat ≤ 252 := by
  unfold State.placeIp
  split
  · next hr => exact s.running_iff.mp hr
  · decide

theorem State.ip_withFetchWord (s : State) (nbits w : Nat) : (s.withFetchWord nbits w).ip = s.placeIp := by
  rw [State.withFetchWord, State.placeBytes_mem_only]
  rfl

theorem State.running_withFetchWord (s : State) (nbits w : Nat) : (s.withFetchWord nbits w).running = true := by
  rw [State.running_iff, State.ip_withFetchWord]
  exact s.placeIp_le

/-- The placed word is what is fetched. -/
theorem State.encode_fetch_withFetchWord {s : State} (hw : s.wf = true) (nbits w : Nat) :
    encode (s.withFetchWord nbits w).fetch = tableBytes nbits w := by
  have hmem : (s.setIp s.placeIp).mem.wf = true := State.mem_wf hw
  obtain ⟨hx, hy, hz⟩ := State.placeBytes_read hmem s.placeIp_le (BitVec.ofNat 8 (w % 2 ^ nbits / 65536))
    (BitVec.ofNat 8 (w % 2 ^ nbits / 256)) (BitVec.ofNat 8 (w % 2 ^ nbits))
  simp only [State.fetch, decodeBytes, encode, State.ip_withFetchWord]
  simp only [State.withFetchWord, tableBytes, hx, hy, hz]

/-- Settles O9: the state is Running at the placed word (`running_withFetchWord`), and its fetch decodes that word. -/
theorem placedWordRunsNext : Obligations.PlacedWordRunsNext := fun s nbits w hw hn =>
  ⟨_, decodeTableWord_of_tableBytes hn (State.encode_fetch_withFetchWord hw nbits w).symm,
    step_of_running (s.running_withFetchWord nbits w)⟩

end Sys2Proof.Machine
end

section
/-! PROOFS. Every step keeps the invariant (20_memory.md section 6, 60_exceptions.md section 9, 10_state.md sections 7 and
8): the canonical collections, the replay of the write notifications, and the count of each kind of event. -/

namespace Sys2Proof.Machine
open Sys2Proof.Stated

/-! ### The canonical collections -/

theorem State.wf_iff (s : State) : s.wf = true ↔ s.mem.wf = true ∧ s.accessed.wf = true := Bool.and_eq_true_iff

theorem AddrSet.wf_foldl_insert {s : AddrSet} (h : s.wf = true) (l : List Addr) :
    (l.foldl AddrSet.insert s).wf = true := by
  induction l generalizing s with
  | nil => exact h
  | cons a l ih => exact ih (AddrSet.wf_insert h a)

theorem State.mem_wf_afterSubleq {s : State} (h : s.mem.wf = true) (a b c : Addr) :
    (s.afterSubleq a b c).mem.wf = true := by
  by_cases ha : a = 254#8
  · rwa [ha, State.mem_afterSubleq_output]
  · rw [State.mem_afterSubleq_store s ha]
    exact Memory.wf_write h a.isLt _

theorem State.wf_afterSubleq {s : State} (h : s.wf = true) (a b c : Addr) : (s.afterSubleq a b c).wf = true := by
  obtain ⟨hmem, haccessed⟩ := s.wf_iff.mp h
  exact (State.wf_iff _).mpr ⟨State.mem_wf_afterSubleq hmem a b c, AddrSet.wf_foldl_insert haccessed _⟩

/-! ### Tracking memory (20_memory.md R70) -/

theorem replay_append (es fs : List Event) : replay (es ++ fs) = fs.foldl replayEvent (replay es) :=
  List.foldl_append

theorem foldl_replayEvent_inputEvents (m : Memory) (s : State) (b : Addr) :
    (inputEvents s b).foldl replayEvent m = m := by
  unfold inputEvents
  split <;> rfl

theorem foldl_replayEvent_notifications (m : Memory) (t : State) : (updateOf t :: haltOf t).foldl replayEvent m = m := by
  unfold haltOf
  split <;> rfl

theorem State.replay_events_afterSubleq (s : State) (a b c : Addr) :
    replay (s.afterSubleq a b c).events = replayEvent (replay s.events) (writeEvent s a b) := by
  rw [State.events_afterSubleq, replay_append, replay_append, foldl_replayEvent_inputEvents, List.foldl_cons,
    foldl_replayEvent_notifications]

theorem State.tracked_afterSubleq {s : State} (h : s.tracked) (a b c : Addr) : (s.afterSubleq a b c).tracked := by
  rw [State.tracked] at h
  rw [State.tracked, State.replay_events_afterSubleq, h]
  by_cases ha : a = 254#8
  · subst ha
    rfl
  · rw [State.mem_afterSubleq_store s ha, writeEvent, if_neg ha]
    rfl

/-! ### Counting events -/

/-- The events a step adds are its transactions, then its notifications. -/
theorem State.countP_events_afterSubleq (s : State) (a b c : Addr) (p : Event → Bool) :
    (s.afterSubleq a b c).events.countP p =
      s.events.countP p + (inputEvents s b ++ [writeEvent s a b]).countP p +
        (updateOf (s.afterSubleq a b c) :: haltOf (s.afterSubleq a b c)).countP p := by
  rw [State.events_afterSubleq, List.append_cons, List.append_assoc s.events, List.countP_append, List.countP_append]

theorem countP_isHalt_notifications (t : State) :
    (updateOf t :: haltOf t).countP Event.isHalt = if t.running then 0 else 1 := by
  rw [haltOf_eq]
  split <;> rfl

theorem countP_isUpdate_notifications (t : State) : (updateOf t :: haltOf t).countP Event.isUpdate = 1 := by
  unfold haltOf
  split <;> rfl

theorem countP_isInput_notifications (t : State) : (updateOf t :: haltOf t).countP Event.isInput = 0 := by
  unfold haltOf
  split <;> rfl

theorem countP_isWrite_transactions (s : State) (a b : Addr) :
    (inputEvents s b ++ [writeEvent s a b]).countP Event.isWrite = 1 := by
  unfold inputEvents writeEvent
  split <;> split <;> rfl

theorem countP_isInput_transactions (s : State) (a b : Addr) :
    (inputEvents s b ++ [writeEvent s a b]).countP Event.isInput = if s.requestsInput b then 1 else 0 := by
  rw [inputEvents_eq, writeEvent]
  split <;> split <;> rfl

theorem State.haltSentOnce_afterSubleq {s : State} (hr : s.running = true) (h : s.haltSentOnce) (a b c : Addr) :
    (s.afterSubleq a b c).haltSentOnce := by
  rw [State.haltSentOnce, if_pos hr] at h
  rw [State.haltSentOnce, State.countP_events_afterSubleq, h, countP_isHalt_notifications,
    countP_transactions_eq_zero s a b (fun _ => rfl) (fun _ => rfl) (fun _ _ => rfl), Nat.zero_add]

theorem State.updatesCounted_afterSubleq {s : State} (h : s.updatesCounted) (a b c : Addr) :
    (s.afterSubleq a b c).updatesCounted := by
  rw [State.updatesCounted] at h
  rw [State.updatesCounted, State.countP_events_afterSubleq, h, countP_isUpdate_notifications,
    countP_transactions_eq_zero s a b (fun _ => rfl) (fun _ => rfl) (fun _ _ => rfl)]
  rfl

theorem State.writesCounted_afterSubleq {s : State} (h : s.writesCounted) (a b c : Addr) :
    (s.afterSubleq a b c).writesCounted := by
  rw [State.writesCounted] at h
  rw [State.writesCounted, State.countP_events_afterSubleq, h, countP_isWrite_transactions,
    countP_isWrite_notifications]
  rfl

theorem State.inputsCounted_afterSubleq {s : State} (h : s.inputsCounted) (a b c : Addr) :
    (s.afterSubleq a b c).inputsCounted := by
  have hcount : (s.afterSubleq a b c).inputCount = if s.requestsInput b then s.inputCount + 1 else s.inputCount := rfl
  rw [State.inputsCounted] at h
  rw [State.inputsCounted, State.countP_events_afterSubleq, h, countP_isInput_transactions,
    countP_isInput_notifications, hcount]
  split <;> rfl

theorem State.Inv_afterSubleq {s : State} (hr : s.running = true) (h : s.Inv) (a b c : Addr) :
    (s.afterSubleq a b c).Inv := by
  obtain ⟨hwf, htracked, hhalt, hupdates, hwrites, hinputs⟩ := h
  exact ⟨State.wf_afterSubleq hwf a b c, State.tracked_afterSubleq htracked a b c,
    State.haltSentOnce_afterSubleq hr hhalt a b c, State.updatesCounted_afterSubleq hupdates a b c,
    State.writesCounted_afterSubleq hwrites a b c, State.inputsCounted_afterSubleq hinputs a b c⟩

/-- Settles O35: a step of a Halted core changes nothing, and the closed-form step keeps each part of the invariant. -/
theorem stepKeepsInvariant : Obligations.StepKeepsInvariant := by
  intro s t hinv h
  obtain ⟨-, rfl⟩ | ⟨hr, a, b, c, -, rfl⟩ := step_cases h
  · exact hinv
  · exact State.Inv_afterSubleq hr hinv a b c

end Sys2Proof.Machine
end

section
/-! PROOFS. Construction (70_reset_and_hazards.md R201, 60_exceptions.md R162): the images it admits, the cells and events
it leaves, and that it meets the invariant. -/

namespace Sys2Proof.Machine

/-! ### Admitted images (D8) -/

theorem imageAdmitted_iff (bytes : List Int) :
    imageAdmitted bytes = true ↔ bytes.length ≤ 256 ∧ ∀ v ∈ bytes, 0 ≤ v ∧ v ≤ 255 := by
  simp only [imageAdmitted, isByteValue, Bool.and_eq_true, decide_eq_true_eq, List.all_eq_true]
  rfl

theorem construct_of_admitted {p : Program} (h : imageAdmitted p.bytes = true) (cb : Callbacks) (replies : List Byte) :
    construct p cb replies = .next (constructed p cb replies) := if_pos h

theorem imageAdmitted_of_construct {p : Program} {cb : Callbacks} {replies : List Byte} {s : State}
    (h : construct p cb replies = .next s) : imageAdmitted p.bytes = true := by
  unfold construct at h
  split at h
  · assumption
  · cases h

theorem construct_refused_iff (p : Program) (cb : Callbacks) (replies : List Byte) :
    construct p cb replies = .refused .imageNotAdmitted ↔ ¬imageAdmitted p.bytes = true := by
  unfold construct
  split <;> simp_all

/-- Settles O33: construction refuses exactly the images `imageAdmitted` does. -/
theorem malformedImageIsRefused : Obligations.MalformedImageIsRefused := by
  intro p cb replies
  simp only [construct_refused_iff, imageAdmitted_iff, not_and_or, not_forall, not_le, exists_prop]

/-! ### The cells -/

theorem wf_constructed {p : Program} (h : imageAdmitted p.bytes = true) (cb : Callbacks) (replies : List Byte) :
    (constructed p cb replies).wf = true := by
  have hlen : (p.bytes.map u8).length ≤ Config.memSize := by
    rw [List.length_map]
    exact ((imageAdmitted_iff _).mp h).1
  exact (State.wf_iff _).mpr ⟨Memory.wf_ofBytes hlen, rfl⟩

theorem imageAdmitted_getD_bounds {bytes : List Int} (h : imageAdmitted bytes = true) (A : Nat) :
    0 ≤ bytes.getD A 0 ∧ bytes.getD A 0 ≤ 255 := by
  rcases Nat.lt_or_ge A bytes.length with hA | hA
  · rw [List.getD_eq_getElem _ _ hA]
    exact ((imageAdmitted_iff _).mp h).2 _ (List.getElem_mem hA)
  · rw [List.getD_eq_default _ _ hA]
    decide

/-- Each cell of a new core is the image's byte, or 0 beyond the image. -/
theorem read_constructed {p : Program} (h : imageAdmitted p.bytes = true) (cb : Callbacks) (replies : List Byte)
    (A : Nat) : (((constructed p cb replies).mem.read A).toNat : Int) = p.bytes.getD A 0 := by
  have hread : (constructed p cb replies).mem.read A = u8 (p.bytes.getD A 0) := by
    have hload := Memory.read_ofBytes 0 (p.bytes.map u8) A
    rw [Nat.zero_add] at hload
    exact hload.trans (List.getD_map (f := u8) (d := 0) ..)
  obtain ⟨hlo, hhi⟩ := imageAdmitted_getD_bounds h A
  rw [hread, toNat_u8, Int.emod_eq_of_lt hlo (by omega)]

/-! ### The events (D6, D7) -/

/-- The write events of the first `n` cells, in ascending order. -/
def loadEvents (mem : Memory) (n : Nat) : List Event :=
  (List.range n).map fun A => Event.memWrite (BitVec.ofNat 8 A) (mem.read A)

theorem constructionEvents_eq (mem : Memory) (m : SourceMap) :
    constructionEvents mem m = loadEvents mem 256 ++ [stateUpdate m Config.resetIp 0 0] := rfl

@[simp] theorem length_loadEvents (mem : Memory) (n : Nat) : (loadEvents mem n).length = n := by
  rw [loadEvents, List.length_map, List.length_range]

theorem getElem?_loadEvents (mem : Memory) {A n : Nat} (h : A < n) :
    (loadEvents mem n)[A]? = some (.memWrite (BitVec.ofNat 8 A) (mem.read A)) := by
  rw [loadEvents, List.getElem?_map, List.getElem?_range h]
  rfl

theorem getElem?_constructionEvents (mem : Memory) (m : SourceMap) {A : Nat} (h : A < 256) :
    (constructionEvents mem m)[A]? = some (.memWrite (BitVec.ofNat 8 A) (mem.read A)) := by
  rw [constructionEvents_eq, List.getElem?_append_left (by rwa [length_loadEvents]), getElem?_loadEvents mem h]

theorem getElem?_constructionEvents_last (mem : Memory) (m : SourceMap) :
    (constructionEvents mem m)[256]? = some (stateUpdate m Config.resetIp 0 0) := by
  rw [constructionEvents_eq, List.getElem?_append_right (by rw [length_loadEvents]), length_loadEvents]
  rfl

/-- Settles O32: the fields of `constructed`, its cells (`read_constructed`) and its events by position. -/
theorem constructionState : Obligations.ConstructionState := fun p cb replies h =>
  ⟨constructed p cb replies, construct_of_admitted h cb replies, wf_constructed h cb replies,
    fun A _ => read_constructed h cb replies A, rfl, rfl, rfl, rfl, rfl, rfl, rfl,
    by simp [constructed, constructionEvents_eq], fun _ hA => getElem?_constructionEvents _ _ hA,
    getElem?_constructionEvents_last _ _⟩

/-! ### The invariant -/

/-- A cell beyond the address space reads as unlisted. -/
theorem Memory.read_of_memSize_le {m : Memory} {lo a : Nat} (h : m.wfFrom lo = true) (ha : Config.memSize ≤ a) :
    m.read a = Config.unlistedByte := by
  induction m generalizing lo with
  | nil => rfl
  | cons e m ih =>
    obtain ⟨k, v⟩ := e
    simp only [Memory.wfFrom, Bool.and_eq_true, decide_eq_true_eq] at h
    obtain ⟨⟨⟨-, hk⟩, -⟩, hm⟩ := h
    rw [Memory.read, if_neg (by omega)]
    exact ih hm

theorem replay_loadEvents_succ (mem : Memory) {n : Nat} (hn : n < 256) :
    replay (loadEvents mem (n + 1)) = (replay (loadEvents mem n)).write n (mem.read n) := by
  have hsucc : loadEvents mem (n + 1) = loadEvents mem n ++ [.memWrite (BitVec.ofNat 8 n) (mem.read n)] := by
    simp only [loadEvents, List.range_succ, List.map_append, List.map_cons, List.map_nil]
  have haddr : (BitVec.ofNat 8 n).toNat = n := Nat.mod_eq_of_lt hn
  simp only [hsucc, replay_append, List.foldl_cons, List.foldl_nil, replayEvent, haddr]

/-- The first `n` load events rebuild the first `n` cells. -/
theorem replay_loadEvents (mem : Memory) {n : Nat} (hn : n ≤ 256) :
    (replay (loadEvents mem n)).wf = true ∧
      ∀ a, (replay (loadEvents mem n)).read a = if a < n then mem.read a else Config.unlistedByte := by
  induction n with
  | zero => exact ⟨rfl, fun _ => rfl⟩
  | succ n ih =>
    obtain ⟨hwf, hread⟩ := ih (by omega)
    rw [replay_loadEvents_succ mem (by omega)]
    refine ⟨Memory.wf_write hwf (by rw [memSize_eq]; omega) _, fun a => ?_⟩
    rw [Memory.read_write hwf, hread]
    by_cases ha : a = n
    · rw [if_pos ha, if_pos (by omega), ha]
    · simp only [if_neg ha, show a < n ↔ a < n + 1 by omega]

theorem replay_constructionEvents {mem : Memory} (h : mem.wf = true) (m : SourceMap) :
    replay (constructionEvents mem m) = mem := by
  obtain ⟨hwf, hread⟩ := replay_loadEvents mem (Nat.le_refl 256)
  have hload : replay (constructionEvents mem m) = replay (loadEvents mem 256) := by
    simp only [constructionEvents_eq, replay_append, List.foldl_cons, List.foldl_nil, stateUpdate, replayEvent]
  rw [hload]
  refine Memory.eq_of_read_eq (lo := 0) hwf h fun a => ?_
  rw [hread]
  split
  · rfl
  · exact (Memory.read_of_memSize_le h (by rw [memSize_eq]; omega)).symm

theorem countP_isWrite_loadEvents (mem : Memory) (n : Nat) : (loadEvents mem n).countP Event.isWrite = n := by
  have hall : ∀ e ∈ loadEvents mem n, Event.isWrite e = true := List.forall_mem_map.mpr fun _ _ => rfl
  rw [List.countP_eq_length.mpr hall, length_loadEvents]

theorem countP_loadEvents_eq_zero (mem : Memory) (n : Nat) {p : Event → Bool} (h : ∀ A v, p (.memWrite A v) = false) :
    (loadEvents mem n).countP p = 0 :=
  List.countP_eq_zero.mpr (List.forall_mem_map.mpr fun _ _ => by simp [h])

theorem Inv_constructed {p : Program} (h : imageAdmitted p.bytes = true) (cb : Callbacks) (replies : List Byte) :
    (constructed p cb replies).Inv := by
  have hwf := wf_constructed h cb replies
  refine ⟨hwf, replay_constructionEvents (State.mem_wf hwf) _, countP_isHalt_constructionEvents _ _, ?_, ?_, ?_⟩
  · rw [State.updatesCounted, constructed, constructionEvents_eq, List.countP_append,
      countP_loadEvents_eq_zero _ _ fun _ _ => rfl]
    rfl
  · rw [State.writesCounted, constructed, constructionEvents_eq, List.countP_append, countP_isWrite_loadEvents]
    rfl
  · rw [State.inputsCounted, constructed, constructionEvents_eq, List.countP_append,
      countP_loadEvents_eq_zero _ _ fun _ _ => rfl]
    rfl

/-- Settles O37: a construction that answers a state answers `constructed` of an admitted image. -/
theorem constructionMeetsInvariant : Obligations.ConstructionMeetsInvariant := by
  intro p cb replies s h
  rw [eq_constructed_of_construct h]
  exact Inv_constructed (imageAdmitted_of_construct h) cb replies

/-- Settles O34, by `construct_empty` and the fields of the reset state. -/
theorem resetIsTheEmptyConstruction : Obligations.ResetIsTheEmptyConstruction :=
  ⟨construct_empty, fun _ => rfl, rfl, rfl, rfl, rfl, rfl⟩

/-- Settles O36: the reset state is a construction. -/
theorem resetMeetsInvariant : Obligations.ResetMeetsInvariant :=
  constructionMeetsInvariant _ _ _ _ construct_empty

end Sys2Proof.Machine
end

section
/-! PROOFS. What a step does to each part of the state (40_subleq.md R130, R139-R142; 10_state.md section 7), and what it
leaves unchanged, read off the closed-form step. -/

namespace Sys2Proof.Machine
open Sys2Proof.Stated

/-! ### Every field of the next state (R130) -/

theorem State.inputQueue_afterSubleq (s : State) (a b c : Addr) :
    (s.afterSubleq a b c).inputQueue =
      if b = 253#8 ∧ s.callbacks.input = true then s.inputQueue.tail else s.inputQueue := by
  simp only [State.afterSubleq, State.subleqCore, State.requestsInput_iff]

theorem State.inputCount_afterSubleq (s : State) (a b c : Addr) :
    (s.afterSubleq a b c).inputCount =
      if b = 253#8 ∧ s.callbacks.input = true then s.inputCount + 1 else s.inputCount := by
  simp only [State.afterSubleq, State.subleqCore, State.requestsInput_iff]

/-- Settles O10, field by field of `afterSubleq`. -/
theorem subleqNextState : Obligations.SubleqNextState := by
  intro s a b c _
  refine ⟨s.afterSubleq a b c, exec_subleq s a b c, rfl, rfl, rfl, s.mem_accessed_afterSubleq a b c, rfl, rfl,
    s.inputQueue_afterSubleq a b c, s.inputCount_afterSubleq a b c, ?_⟩
  rw [State.events_afterSubleq, List.append_cons, List.append_cons]

/-- Settles O11, by whether the core is Running. -/
theorem everyStepAnswersNextState : Obligations.EveryStepAnswersNextState := by
  intro s
  cases hr : s.running with
  | false => exact ⟨s, step_of_halted hr, fun _ => rfl, nofun⟩
  | true =>
    have hf := State.fetch_of_running hr
    exact ⟨_, step_of_fetch hr hf, nofun, fun _ => ⟨rfl, hf ▸ exec_subleq s ..⟩⟩

/-! ### The frame -/

/-- No cell but the destination changes. -/
theorem State.read_afterSubleq_ne (s : State) {a : Addr} {A : Nat} (h : A ≠ a.toNat) (b c : Addr) :
    (s.afterSubleq a b c).mem.read A = s.mem.read A := by
  by_cases ha : a = 254#8
  · rw [ha, State.mem_afterSubleq_output]
  · rw [State.mem_afterSubleq_store s ha, Memory.read_write_ne _ _ h]

theorem State.unasked_afterSubleq {s : State} {b : Addr} (h : ¬(b = 253#8 ∧ s.callbacks.input = true)) (a c : Addr) :
    (s.afterSubleq a b c).inputQueue = s.inputQueue ∧ (s.afterSubleq a b c).inputCount = s.inputCount ∧
      (s.afterSubleq a b c).inputs = s.inputs := by
  rw [State.inputQueue_afterSubleq, State.inputCount_afterSubleq, State.inputs_afterSubleq, if_neg h, if_neg h,
    if_neg h, List.append_nil]
  exact ⟨rfl, rfl, rfl⟩

/-- Settles O17, from the closed-form step. -/
theorem subleqFrame : Obligations.SubleqFrame := by
  intro s t a b c h
  obtain rfl : s.afterSubleq a b c = t := Host.Outcome.next.inj ((exec_subleq s a b c).symm.trans h)
  refine ⟨fun ha A => ?_, fun _ A hA => s.read_afterSubleq_ne hA b c, rfl, rfl,
    ⟨_, (s.events_afterSubleq a b c).trans (List.append_assoc ..)⟩,
    fun A hA => (s.mem_accessed_afterSubleq a b c A).mpr (.inl hA), fun hb => ?_⟩
  · rw [ha, State.mem_afterSubleq_output]
  · obtain ⟨hqueue, hcount, -⟩ := State.unasked_afterSubleq (fun hreq => hb hreq.1) a c
    exact ⟨hqueue, hcount⟩

/-- Settles O19: a step stores in `mem[a]` alone, and stores nothing for `a = 254`. -/
theorem outputCellNeverChanges : Obligations.OutputCellNeverChanges := by
  intro s t h
  obtain ⟨-, rfl⟩ | ⟨-, a, b, c, -, rfl⟩ := step_cases h
  · rfl
  · by_cases ha : a = 254#8
    · rw [ha, State.mem_afterSubleq_output]
    · exact s.read_afterSubleq_ne (fun h254 => ha (BitVec.eq_of_toNat_eq h254.symm)) b c

/-! ### The accessed set and the counters (10_state.md section 7) -/

/-- The addresses a Running core fetches from, without wrapping. -/
theorem State.eq_ip_add_iff {s : State} (hr : s.running = true) {k : Addr} (hk : k.toNat ≤ 3) (A : Addr) :
    A = s.ip + k ↔ A.toNat = s.ip.toNat + k.toNat := by
  rw [← State.toNat_ip_add hr hk, BitVec.toNat_inj]

/-- Settles O18: the touched addresses of the closed-form step, with the operands that are fetched. -/
theorem stepTouchesFetchAndOperands : Obligations.StepTouchesFetchAndOperands := by
  intro s hr
  refine ⟨_, step_of_fetch hr (State.fetch_of_running hr), fun A => ?_⟩
  have h1 : A = s.ip + 1#8 ↔ A.toNat = s.ip.toNat + 1 := State.eq_ip_add_iff hr (by decide) A
  have h2 : A = s.ip + 2#8 ↔ A.toNat = s.ip.toNat + 2 := State.eq_ip_add_iff hr (by decide) A
  rw [State.mem_accessed_afterSubleq]
  simp only [touched, List.mem_cons, List.not_mem_nil, or_false, h1, h2, BitVec.toNat_inj]

theorem AddrSet.length_insert (s : AddrSet) (a : Addr) :
    s.length ≤ (s.insert a).length ∧ (s.insert a).length ≤ s.length + 1 := by
  induction s with
  | nil => simp [AddrSet.insert]
  | cons x s ih =>
    simp only [AddrSet.insert]
    split
    · simp only [List.length_cons]; omega
    · split <;> simp only [List.length_cons] <;> omega

theorem AddrSet.length_foldl_insert (l : List Addr) (s : AddrSet) :
    s.length ≤ (l.foldl AddrSet.insert s).length ∧ (l.foldl AddrSet.insert s).length ≤ s.length + l.length := by
  induction l generalizing s with
  | nil => exact ⟨Nat.le_refl _, Nat.le_refl _⟩
  | cons a l ih =>
    have hins := AddrSet.length_insert s a
    have hrest := ih (s.insert a)
    simp only [List.foldl_cons, List.length_cons]
    omega

/-- Settles O41: a step inserts five addresses and counts one cycle, or does nothing. -/
theorem countersNeverDecrease : Obligations.CountersNeverDecrease := by
  intro s t h
  obtain ⟨hr, rfl⟩ | ⟨hr, a, b, c, -, rfl⟩ := step_cases h
  · exact ⟨by rw [hr]; rfl, Nat.le_refl _, Nat.le_add_right _ _, fun _ hA => hA⟩
  · obtain ⟨hlo, hhi⟩ := AddrSet.length_foldl_insert [s.ip, s.ip + 1#8, s.ip + 2#8, b, a] s.accessed
    exact ⟨by rw [if_pos hr]; rfl, hlo, hhi, fun A hA => (s.mem_accessed_afterSubleq a b c A).mpr (.inl hA)⟩

/-! ### The B read (20_memory.md R55) -/

theorem bValue_port (s : State) : bValue s 253#8 = Stated.inValue s := if_pos rfl

theorem bValue_cell (s : State) {b : Addr} (hb : b ≠ 253#8) : bValue s b = s.mem.read b.toNat := if_neg hb

theorem inValue_attached {s : State} (h : s.callbacks.input = true) :
    Stated.inValue s = s.inputQueue.headD (Config.inputReply s.inputCount) := if_pos h

theorem inValue_unattached {s : State} (h : s.callbacks.input = false) : Stated.inValue s = 0#8 :=
  if_neg (by rw [h]; exact Bool.false_ne_true)

/-- A read of the attached port asks once and uses the answer. -/
theorem State.asked_afterSubleq {s : State} (hw : s.wf = true) (hi : s.callbacks.input = true) (a c : Addr) :
    stepGives s (s.afterSubleq a 253#8 c) a (Stated.inValue s) ∧
      (s.afterSubleq a 253#8 c).inputQueue = s.inputQueue.tail ∧
      (s.afterSubleq a 253#8 c).inputCount = s.inputCount + 1 ∧
      (s.afterSubleq a 253#8 c).inputs = s.inputs ++ [s8 (Stated.inValue s)] := by
  rw [State.inputQueue_afterSubleq, State.inputCount_afterSubleq, State.inputs_afterSubleq, if_pos ⟨rfl, hi⟩,
    if_pos ⟨rfl, hi⟩, if_pos ⟨rfl, hi⟩, ← bValue_port]
  exact ⟨State.stepGives_afterSubleq hw a _ c, rfl, rfl, rfl⟩

/-- Settles O13: an attached port asks (`asked_afterSubleq`), and every other B read asks nothing
(`unasked_afterSubleq`). -/
theorem inputPortReadsTheHost : Obligations.InputPortReadsTheHost := by
  intro s a b c hw _
  refine ⟨s.afterSubleq a b c, exec_subleq s a b c,
    (s.mem_accessed_afterSubleq a b c b).mpr (.inr (by simp [touched])), ?_, ?_, ?_, fun hb => ?_⟩
  · rintro rfl hi v rest hq
    simpa [inValue_attached hi, hq] using State.asked_afterSubleq hw hi a c
  · rintro rfl hi hq
    simpa [inValue_attached hi, hq] using State.asked_afterSubleq hw hi a c
  · rintro rfl hi
    have hgives := State.stepGives_afterSubleq hw a 253#8 c
    rw [bValue_port, inValue_unattached hi] at hgives
    exact ⟨hgives, State.unasked_afterSubleq (by simp [hi]) a c⟩
  · have hgives := State.stepGives_afterSubleq hw a b c
    rw [bValue_cell s hb] at hgives
    exact ⟨hgives, State.unasked_afterSubleq (fun hreq => hb hreq.1) a c⟩

/-! ### Operands that coincide (R139-R142) -/

/-- The fetched operands are the stored bytes at `ip`, `ip + 1` and `ip + 2`. -/
theorem State.read_of_fetch {s : State} {a b c : Addr} (h : s.fetch = .subleq a b c) :
    s.mem.read s.ip.toNat = a ∧ s.mem.read (s.ip + 1#8).toNat = b ∧ s.mem.read (s.ip + 2#8).toNat = c :=
  Instr.subleq.inj h

/-- Settles O20: the operands are those of the fetch, and the store is there afterwards. -/
theorem ownBytesAreFetchedBeforeTheWrite : Obligations.OwnBytesAreFetchedBeforeTheWrite := by
  intro s a b c hw hr hf _
  obtain ⟨ha, hb, hc⟩ := State.read_of_fetch hf
  refine ⟨s.afterSubleq a b c, step_of_fetch hr hf, rfl, fun ha => State.read_afterSubleq_store hw ha b c, ?_, ?_, ?_⟩
  all_goals
    intro hport hown
    rw [bValue_cell s hport]
  · rwa [hown]
  · rw [hown, hb, ← hown]
  · rwa [hown]

theorem result_self (s : State) {x : Addr} (hx : x ≠ 253#8) : result s x x = 0#8 := by
  rw [result_eq_sub, bValue_cell s hx, BitVec.sub_self]

/-- Settles O21: the difference is 0 (`result_self`), which is not positive. -/
theorem subtractFromItselfClearsAndJumps : Obligations.SubtractFromItselfClearsAndJumps := by
  intro s x c hw _ hx
  have hzero := result_self s hx
  have htaken : s8 (result s x x) ≤ 0 := by rw [hzero]; decide
  refine ⟨s.afterSubleq x x c, exec_subleq s x x c, newIp_of_nonpos htaken c, fun hx' => ?_, fun hx' => ⟨?_, ?_⟩⟩
  · rw [State.read_afterSubleq_store hw hx', hzero]
  · rw [hx', State.mem_afterSubleq_output]
  · rw [State.outputs_afterSubleq, if_pos hx', hzero]
    rfl

theorem u8_neg_s8 (v : Byte) : u8 (-(s8 v)) = -v := by
  rw [s8_eq_toInt, u8, BitVec.ofInt_neg, BitVec.ofInt_toInt]

/-- Settles O22: `stepGives_afterSubleq` for the destinations 253 and 254. -/
theorem inputPortCombinations : Obligations.InputPortCombinations := by
  intro s b c hw _
  have hport := bValue_port s
  refine ⟨fun hb => ⟨s.afterSubleq 253#8 b c, exec_subleq .., ?_, ?_⟩, ⟨s.afterSubleq 253#8 253#8 c, exec_subleq .., ?_⟩,
    ⟨s.afterSubleq 254#8 253#8 c, exec_subleq .., ?_⟩⟩
  · have hgives := (State.stepGives_afterSubleq hw 253#8 b c).1 (by decide)
    rw [bValue_cell s hb] at hgives
    exact hgives.1
  · exact (State.unasked_afterSubleq (fun hreq => hb hreq.1) _ c).2.2
  · have hgives := (State.stepGives_afterSubleq hw 253#8 253#8 c).1 (by decide)
    rw [hport] at hgives
    exact hgives.1
  · obtain ⟨-, hout⟩ := (State.stepGives_afterSubleq hw 254#8 253#8 c).2 rfl
    rw [hport] at hout
    refine ⟨hout, fun hzero => ?_⟩
    rw [hout, hzero, u8_neg_s8, BitVec.zero_sub]

/-! ### What the next state depends on (60_exceptions.md section 9) -/

theorem result_congr {s t : State} {a b : Addr} (hmem : s.mem = t.mem) (hb : bValue s b = bValue t b) :
    result s a b = result t a b := by
  rw [result_eq_sub, result_eq_sub, hmem, hb]

theorem SameCore.fetch_eq {s t : State} (h : SameCore s t) : s.fetch = t.fetch := by
  obtain ⟨hmem, hip, -, -⟩ := h
  simp only [State.fetch, State.memRead_eq, hmem, hip]

theorem SameCore.afterSubleq {s t : State} (h : SameCore s t) {b : Addr} (hb : bValue s b = bValue t b) (a c : Addr) :
    SameCore (s.afterSubleq a b c) (t.afterSubleq a b c) := by
  obtain ⟨hmem, hip, hcycles, haccessed⟩ := h
  have hresult : result s a b = result t a b := result_congr hmem hb
  simp only [SameCore, State.afterSubleq, State.subleqCore, newIp, hresult, hmem, hip, hcycles, haccessed, and_self]

/-- Agreeing cores read the same B value, given the same input when the fetched `b` is the port. -/
theorem SameCore.bValue_eq {s t : State} (h : SameCore s t) {b : Addr}
    (hin : b = 253#8 → Stated.inValue s = Stated.inValue t) : bValue s b = bValue t b := by
  by_cases hb : b = 253#8
  · rw [hb, bValue_port, bValue_port, hin hb]
  · rw [bValue_cell s hb, bValue_cell t hb, h.1]

/-- Settles O30: agreeing cores are both Halted, or fetch the same instruction and step to agreeing cores. -/
theorem nextStateDependsOnCoreAndInput : Obligations.NextStateDependsOnCoreAndInput := by
  intro s t s' t' h hs ht hin
  have hrunning : s.running = t.running := congrArg runningAt h.2.1
  obtain ⟨hr, rfl⟩ | ⟨hr, a, b, c, hf, rfl⟩ := step_cases hs
  · cases (step_of_halted (hrunning ▸ hr)).symm.trans ht
    exact h
  · cases (step_of_fetch (hrunning ▸ hr) (h.fetch_eq ▸ hf)).symm.trans ht
    have hb : s.mem.read (s.ip.toNat + 1) = b :=
      (Instr.subleq.inj ((State.fetch_of_running hr).symm.trans hf)).2.1
    exact h.afterSubleq (h.bValue_eq fun hport => hin (hb.trans hport)) a c

end Sys2Proof.Machine
end

section
/-! PROOFS. The result byte and the branch condition (40_subleq.md R133, R134, and the overflow outcomes of section 3). -/

namespace Sys2Proof.Machine

/-- A byte is its signed value modulo 256. -/
theorem toNat_eq_s8_emod (u : Byte) : (u.toNat : Int) = s8 u % 256 := by
  rw [← toNat_u8, u8_s8]

/-- Settles O2: the signed operands differ from the unsigned by multiples of 256 (`toNat_eq_s8_emod`). -/
theorem subtractionWrapsWhateverTheSign : Obligations.SubtractionWrapsWhateverTheSign := by
  intro av bv
  have hunsigned : ((subtract av bv).toNat : Int) = ((av.toNat : Int) - bv.toNat) % 256 := toNat_u8 _
  refine ⟨hunsigned, ?_⟩
  rw [hunsigned, toNat_eq_s8_emod av, toNat_eq_s8_emod bv, ← Int.sub_emod]

theorem branchTaken_iff (r : Byte) : branchTaken r = true ↔ s8 r ≤ 0 := decide_eq_true_iff

theorem s8_nonpos_iff (r : Byte) : s8 r ≤ 0 ↔ r.toNat = 0 ∨ 128 ≤ r.toNat := by
  rcases Nat.lt_or_ge r.toNat 128 with h | h
  · rw [s8_of_le_127 (by omega)]
    omega
  · rw [s8_of_128_le h]
    omega

/-- Settles O3: the sign of a byte by its half of the byte range (`s8_nonpos_iff`). -/
theorem branchTakenExactlyWhenNonPositive : Obligations.BranchTakenExactlyWhenNonPositive := by
  intro r
  have hzero : r = 0#8 ↔ r.toNat = 0 := (BitVec.toNat_inj (y := 0#8)).symm
  rw [← Bool.not_eq_true, branchTaken_iff, s8_nonpos_iff, hzero]
  omega

/-- Settles O4: three closed differences, evaluated. -/
theorem overflowOutcomesAreSilent : Obligations.OverflowOutcomesAreSilent := by
  unfold Obligations.OverflowOutcomesAreSilent
  decide

end Sys2Proof.Machine
end

section
/-! PROOFS. The source-line lookup (60_exceptions.md R175, D10), by induction on the map. -/

namespace Sys2Proof.Machine

/-- What the lookup does with one more entry: it is found if it lies at or below `ip` and nothing found in the rest lies
above it. -/
theorem nearestLine_cons (e : Addr × LineInfo) (m : SourceMap) (ip : Addr) :
    nearestLine (e :: m) ip =
      if e.1 ≤ ip ∧ ∀ f ∈ nearestLine m ip, f.1 ≤ e.1 then some e else nearestLine m ip := by
  rw [nearestLine]
  cases nearestLine m ip <;> simp

theorem nearestLine_eq_none_iff (m : SourceMap) (ip : Addr) : nearestLine m ip = none ↔ ∀ e ∈ m, ¬e.1 ≤ ip := by
  induction m with
  | nil => simp [nearestLine]
  | cons e m ih =>
    rw [nearestLine_cons, List.forall_mem_cons, ← ih]
    split
    · next he => simp [he.1]
    · next he => exact ⟨fun h => ⟨fun hle => he ⟨hle, by simp [h]⟩, h⟩, And.right⟩

theorem nearestLine_eq_some {m : SourceMap} {ip : Addr} {e : Addr × LineInfo} (h : nearestLine m ip = some e) :
    e ∈ m ∧ e.1 ≤ ip ∧ ∀ f ∈ m, f.1 ≤ ip → f.1 ≤ e.1 := by
  induction m generalizing e with
  | nil => cases h
  | cons d m ih =>
    rw [nearestLine_cons] at h
    split at h
    · next hd =>
      cases h
      obtain ⟨hle, hbelow⟩ := hd
      refine ⟨List.mem_cons_self, hle, List.forall_mem_cons.mpr ⟨fun _ => BitVec.le_refl _, fun f hf hfle => ?_⟩⟩
      cases hm : nearestLine m ip with
      | none => exact absurd hfle ((nearestLine_eq_none_iff m ip).mp hm f hf)
      | some g => exact BitVec.le_trans ((ih hm).2.2 f hf hfle) (hbelow g hm)
    · next hd =>
      obtain ⟨hmem, hle, hgreatest⟩ := ih h
      refine ⟨List.mem_cons_of_mem _ hmem, hle, List.forall_mem_cons.mpr ⟨fun hdle => ?_, hgreatest⟩⟩
      simp only [h, Option.mem_some_iff, forall_eq', hdle, true_and] at hd
      exact (BitVec.le_total _ _).resolve_right hd

/-- Settles O31, by the two answers of the lookup. -/
theorem lineLookupIsNearestPreceding : Obligations.LineLookupIsNearestPreceding := by
  refine fun m ip => ⟨fun k l h => ?_, nearestLine_eq_none_iff m ip, fun h => by rw [lineOf, textOf, h]; exact ⟨rfl, rfl⟩⟩
  obtain ⟨hmem, hle, hgreatest⟩ := nearestLine_eq_some h
  exact ⟨hmem, hle, hgreatest, by rw [lineOf, h]; rfl, by rw [textOf, h]; rfl⟩

end Sys2Proof.Machine
end

section
/-! PROOFS. Runs (70_reset_and_hazards.md R206): a number of steps, the bounded run, the reachable states. -/

namespace Sys2Proof.Machine
open Sys2Proof.Stated

/-! ### A number of steps -/

theorem run_succ {s t : State} (h : step s = .next t) (k : Nat) :
    Host.Core.run core (k + 1) s = Host.Core.run core k t := by
  have hcore : core.step s = .next t := h
  simp only [Host.Core.run, hcore]

theorem run_of_halted {s : State} (h : s.running = false) (k : Nat) : Host.Core.run core k s = .next s := by
  induction k with
  | zero => rfl
  | succ k ih => rw [run_succ (step_of_halted h), ih]

/-- With nothing in memory the instruction at 0 is `subleq 0, 0, 0`, which stores 0 and jumps to 0. -/
theorem step_of_empty {s : State} (hmem : s.mem = []) (hip : s.ip = 0#8) :
    ∃ t, step s = .next t ∧ t.mem = [] ∧ t.ip = 0#8 ∧ t.cyclesExecuted = s.cyclesExecuted + 1 := by
  have hr : s.running = true := by rw [State.running_eq, hip]; rfl
  have hf : s.fetch = .subleq 0#8 0#8 0#8 := by rw [State.fetch_of_running hr, hmem]; rfl
  have hzero : result s 0#8 0#8 = 0#8 := result_self s (by decide)
  refine ⟨_, step_of_fetch hr hf, ?_, newIp_of_nonpos (by rw [hzero]; decide) _, rfl⟩
  rw [State.mem_afterSubleq_store s (by decide), hmem, hzero]
  rfl

/-- Settles O26, by induction on the number of steps (`step_of_empty`). -/
theorem zeroInstructionLoopsForever : Obligations.ZeroInstructionLoopsForever := by
  intro n
  induction n with
  | zero => exact fun s hmem hip => ⟨s, rfl, hmem, hip, by rw [State.running_eq, hip]; rfl, rfl⟩
  | succ n ih =>
    intro s hmem hip
    obtain ⟨u, hstep, hmem', hip', hcycles⟩ := step_of_empty hmem hip
    obtain ⟨t, hrun, htmem, htip, htrunning, htcycles⟩ := ih u hmem' hip'
    exact ⟨t, (run_succ hstep n).trans hrun, htmem, htip, htrunning, by omega⟩

/-! ### The bounded run (60_exceptions.md R186) -/

theorem runUntilHalted_of_halted {s : State} (h : s.running = false) (n : Nat) : runUntilHalted n s = some s := by
  cases n <;> simp [runUntilHalted, h]

theorem runUntilHalted_zero_of_running {s : State} (h : s.running = true) : runUntilHalted 0 s = none := if_pos h

theorem runUntilHalted_succ_of_running {s t : State} (hr : s.running = true) (h : step s = .next t) (n : Nat) :
    runUntilHalted (n + 1) s = runUntilHalted n t := by
  rw [runUntilHalted, if_pos hr, h]

theorem run_of_runUntilHalted {n : Nat} {s t : State} (h : runUntilHalted n s = some t) :
    t.running = false ∧ ∃ k, k ≤ n ∧ Host.Core.run core k s = .next t := by
  induction n generalizing s with
  | zero =>
    cases hr : s.running with
    | false =>
      cases (runUntilHalted_of_halted hr 0).symm.trans h
      exact ⟨hr, 0, Nat.le_refl 0, rfl⟩
    | true => cases (runUntilHalted_zero_of_running hr).symm.trans h
  | succ n ih =>
    cases hr : s.running with
    | false =>
      cases (runUntilHalted_of_halted hr _).symm.trans h
      exact ⟨hr, 0, Nat.zero_le _, rfl⟩
    | true =>
      obtain ⟨u, hstep, -⟩ := everyStepAnswersNextState s
      obtain ⟨ht, k, hk, hrun⟩ := ih ((runUntilHalted_succ_of_running hr hstep n).symm.trans h)
      exact ⟨ht, k + 1, Nat.succ_le_succ hk, (run_succ hstep k).trans hrun⟩

theorem runUntilHalted_of_run {n k : Nat} {s t : State} (hk : k ≤ n) (h : Host.Core.run core k s = .next t)
    (ht : t.running = false) : runUntilHalted n s = some t := by
  induction k generalizing n s with
  | zero =>
    cases h
    exact runUntilHalted_of_halted ht n
  | succ k ih =>
    cases hr : s.running with
    | false =>
      cases (run_of_halted hr _).symm.trans h
      exact runUntilHalted_of_halted hr n
    | true =>
      obtain ⟨u, hstep, -⟩ := everyStepAnswersNextState s
      obtain ⟨m, rfl⟩ : ∃ m, n = m + 1 := ⟨n - 1, by omega⟩
      rw [runUntilHalted_succ_of_running hr hstep]
      exact ih (by omega) ((run_succ hstep k).symm.trans h)

/-- Settles O27: the bounded run takes the steps of `Host.Core.run` until the core is Halted, and further steps change
nothing. -/
theorem boundedRunEndsHalted : Obligations.BoundedRunEndsHalted :=
  ⟨fun _ _ _ => run_of_runUntilHalted, fun _ _ _ _ => runUntilHalted_of_run⟩

/-! ### Reachable states -/

/-- A property that construction establishes, that steps keep and that does not depend on the queued answers holds of
every reachable state. -/
theorem property_of_reachable {p : Program} {cb : Callbacks} {P : State → Prop}
    (hconstruct : ∀ replies s, construct p cb replies = .next s → P s) (hstep : ∀ s t, P s → step s = .next t → P t)
    (hoffer : ∀ s v, P s → P (offerInput s v)) {s : State} (h : Reachable p cb s) : P s := by
  induction h with
  | construct replies s h => exact hconstruct replies s h
  | step s t _ h ih => exact hstep s t ih h
  | offer s v _ ih => exact hoffer s v ih

/-- Settles O38: the invariant holds at construction and is kept by steps; it does not speak of the queue. -/
theorem reachableStatesMeetInvariant : Obligations.ReachableStatesMeetInvariant := fun p cb _ =>
  property_of_reachable (constructionMeetsInvariant p cb) stepKeepsInvariant fun _ _ h => h

/-- Settles O39: the construction loads the image's byte 254 (`read_constructed`), and no step changes the cell. -/
theorem outputCellHoldsTheImageByte : Obligations.OutputCellHoldsTheImageByte := by
  refine fun p cb s => property_of_reachable (P := fun s => ((s.mem.read 254).toNat : Int) = p.bytes.getD 254 0)
    (fun replies s h => ?_) (fun s t ih h => ?_) fun _ _ h => h
  · rw [eq_constructed_of_construct h]
    exact read_constructed (imageAdmitted_of_construct h) cb replies 254
  · rwa [outputCellNeverChanges s t h]

theorem AddrSet.length_le_of_wfFrom {s : AddrSet} {lo : Nat} (h : s.wfFrom lo = true) (hlo : lo ≤ 256) :
    s.length + lo ≤ 256 := by
  induction s generalizing lo with
  | nil => simpa using hlo
  | cons a s ih =>
    simp only [AddrSet.wfFrom, Bool.and_eq_true, decide_eq_true_eq] at h
    obtain ⟨ha, hs⟩ := h
    have hrest := ih hs a.isLt
    rw [List.length_cons]
    omega

/-- Settles O40: the addresses rise strictly below 256. -/
theorem bytesAccessedAtMost256 : Obligations.BytesAccessedAtMost256 := fun s h =>
  AddrSet.length_le_of_wfFrom (s.wf_iff.mp h).2 (Nat.zero_le 256)

end Sys2Proof.Machine
end

section
/-! PROOFS. The assembler's instruction and directive (30_encoding.md R94, R96, R98, R104): the operand counts, the default
target, the size limit, the unknown names. -/

namespace Sys2Proof.Machine

/-! ### Operand counts and the default target (R96, R98, D15) -/

theorem assembleSubleq_argumentCount (line p : Nat) (text : Text) (symbols : Symbols) {ops : List SourceOperand}
    (h : ¬(ops.length = 2 ∨ ops.length = 3)) :
    assembleSubleq line text p symbols ops = .error (.argumentCount line text [2, 3] ops.length) :=
  if_neg ((mem_subleqOperandCounts _).not.mpr h)

theorem assembleData_argumentCount (line : Nat) (text : Text) (symbols : Symbols) {ops : List SourceOperand}
    (h : ops.length ≠ 1) : assembleData line text symbols ops = .error (.argumentCount line text [1] ops.length) :=
  if_neg ((mem_dataOperandCounts _).not.mpr h)

theorem assembleBody_subleq_argumentCount (line : Nat) (text : Text) (st : AsmState) {ops : List SourceOperand}
    (h : ¬(ops.length = 2 ∨ ops.length = 3)) :
    assembleBody line text st (some (nameSubleq, ops)) = .error (.argumentCount line text [2, 3] ops.length) := by
  rw [assembleBody_subleq, assembleSubleq_argumentCount _ _ _ _ h]
  rfl

theorem assembleBody_data_argumentCount (line : Nat) (text : Text) (st : AsmState) {ops : List SourceOperand}
    (h : ops.length ≠ 1) :
    assembleBody line text st (some (nameData, ops)) = .error (.argumentCount line text [1] ops.length) := by
  rw [assembleBody_data, assembleData_argumentCount _ _ _ h]
  rfl

/-- One more operand that resolves adds its value. -/
theorem resolveOperands_concat {symbols : Symbols} {range : Int × Int} {e : SourceOperand} {v : Emitted}
    (h : resolveOperand symbols range e = some v) (ops : List SourceOperand) :
    resolveOperands symbols range (ops ++ [e]) = (resolveOperands symbols range ops).map (· ++ [v]) := by
  induction ops with
  | nil => simp only [List.nil_append, resolveOperands, h, Option.map_some]
  | cons d ds ih =>
    simp only [List.cons_append, resolveOperands, ih]
    cases resolveOperand symbols range d with
    | none => rfl
    | some w => cases resolveOperands symbols range ds <;> rfl

/-- The two-operand form is the three-operand form with a literal for the default target. -/
theorem assembleBody_subleq_two (line : Nat) (text : Text) (st : AsmState) (x y : SourceOperand) {d : Int} (hlo : 0 ≤ d)
    (hhi : d ≤ 255) (hd : u8 d = u8 (st.emitted.length + 3)) :
    assembleBody line text st (some (nameSubleq, [x, y])) =
      assembleBody line text st (some (nameSubleq, [x, y, .literal d])) := by
  have htarget : resolveOperand st.symbols Config.addressRange (.literal d) =
      some (.resolved (u8 (st.emitted.length + 3))) := by
    rw [resolveOperand_literal_inRange st.symbols hlo hhi, hd]
  have hthree := resolveOperands_concat htarget [x, y]
  rw [List.cons_append, List.cons_append, List.nil_append] at hthree
  rw [assembleBody_subleq, assembleBody_subleq]
  simp only [assembleSubleq, hthree]
  cases resolveOperands st.symbols Config.addressRange [x, y] <;> rfl

/-- Settles O43: the default target is the literal `p + 3`, or 0 where `p + 3` is 256. -/
theorem twoOperandSubleqTargetsTheNextAddress : Obligations.TwoOperandSubleqTargetsTheNextAddress := by
  refine fun line text st x y => ⟨fun h => ?_, fun h => ?_, fun ops h2 h3 => ?_⟩
  · exact assembleBody_subleq_two line text st x y (by omega) (by omega) rfl
  · exact assembleBody_subleq_two line text st x y (by decide) (by decide) (by rw [h]; decide)
  · exact assembleBody_subleq_argumentCount line text st (fun h => h.elim h2 h3)

/-! ### `.data` (R98) -/

theorem assembleBody_data_one (line : Nat) (text : Text) {st : AsmState} {e : SourceOperand} {v : Emitted}
    (hroom : st.emitted.length < 256) (h : resolveOperand st.symbols Config.valueRange e = some v) :
    ∃ st', assembleBody line text st (some (nameData, [e])) = .ok st' ∧ st'.emitted = st.emitted ++ [v] := by
  have hdata : assembleData line text st.symbols [e] = .ok [v] := by
    simp [assembleData, resolveOperands_of_forall₂ (.cons h .nil)]
  rw [assembleBody_data, hdata]
  exact emitValues_of_fits line text hroom

/-- Settles O44: one operand that resolves is one byte (`assembleBody_data_one`), and a literal resolves to `u8` of it. -/
theorem dataEmitsOneByte : Obligations.DataEmitsOneByte := by
  refine fun line text st => ⟨fun hroom => ⟨fun v hlo hhi => ?_, fun e r => assembleBody_data_one line text hroom⟩,
    fun ops => assembleBody_data_argumentCount line text st⟩
  obtain ⟨st', hok, hemitted⟩ :=
    assembleBody_data_one line text hroom (resolveOperand_literal_inRange st.symbols (range := Config.valueRange) hlo hhi)
  exact ⟨st', hok, hemitted, by rw [hemitted, List.length_append]; rfl⟩

/-! ### The size limit (R104, D16) -/

theorem emitValues_overflow (line : Nat) (text : Text) {st : AsmState} {vs : List Emitted}
    (h : Config.memSize < st.emitted.length + vs.length) : emitValues line text st vs = .error (.rangeError line text) :=
  if_neg (Nat.not_le.mpr h)

theorem assembleSubleq_ok_or_rangeError (line p : Nat) (text : Text) (symbols : Symbols) {ops : List SourceOperand}
    (h : ops.length = 2 ∨ ops.length = 3) :
    (∃ vs, assembleSubleq line text p symbols ops = .ok vs) ∨
      assembleSubleq line text p symbols ops = .error (.rangeError line text) := by
  rw [assembleSubleq, if_pos ((mem_subleqOperandCounts _).mpr h)]
  split
  · exact .inr rfl
  · exact .inl ⟨_, rfl⟩

theorem assembleData_ok_or_rangeError (line : Nat) (text : Text) (symbols : Symbols) {ops : List SourceOperand}
    (h : ops.length = 1) :
    (∃ vs, assembleData line text symbols ops = .ok vs) ∨
      assembleData line text symbols ops = .error (.rangeError line text) := by
  rw [assembleData, if_pos ((mem_dataOperandCounts _).mpr h)]
  split
  · exact .inr rfl
  · exact .inl ⟨_, rfl⟩

/-- Settles O57: the operands are out of range, or their values do not fit (`emitValues_overflow`). -/
theorem emissionBeyondMemoryIsRangeError : Obligations.EmissionBeyondMemoryIsRangeError := by
  refine fun line text st ops => ⟨fun hlen hfull => ?_, fun hlen hfull => ?_⟩
  · rw [assembleBody_subleq]
    obtain ⟨vs, hvs⟩ | herr := assembleSubleq_ok_or_rangeError line st.emitted.length text st.symbols hlen
    · rw [hvs]
      exact emitValues_overflow line text (by rw [assembleSubleq_length hvs]; exact hfull)
    · rw [herr]
      rfl
  · rw [assembleBody_data]
    obtain ⟨vs, hvs⟩ | herr := assembleData_ok_or_rangeError line text st.symbols hlen
    · rw [hvs]
      exact emitValues_overflow line text (by rw [assembleData_length hvs]; exact Nat.lt_succ_of_le hfull)
    · rw [herr]
      rfl

/-! ### Names (R94, D12) -/

/-- Settles O51: `assembleBody` compares the name with the two it knows. -/
theorem otherNamesAreUnknownInstructions : Obligations.OtherNamesAreUnknownInstructions := by
  refine ⟨fun line text st name ops hsubleq hdata => ?_, by decide⟩
  rw [assembleBody, if_neg hsubleq, if_neg hdata]

end Sys2Proof.Machine
end

section
/-! PROOFS. Lines and pass one (30_encoding.md R95, R103-R105): what a line binds, emits and maps, and how errors and
entries carry over a list of lines to the assembler's answer. -/

namespace Sys2Proof.Machine

/-! ### One line -/

theorem assembleLine_of_parse {text : Text} {p : ParsedLine} (h : parseLine text = some p) (line : Nat) (st : AsmState) :
    assembleLine line text st =
      (bindLabel line text st p.label).bind fun bound => assembleBody line text bound p.body := by
  simp only [assembleLine, h]
  split <;> next hb => rw [hb]; rfl

theorem lookupSymbol_concat (symbols more : Symbols) (name : Text) :
    lookupSymbol (symbols ++ more) name = (lookupSymbol symbols name).or (lookupSymbol more name) := by
  induction symbols with
  | nil => rfl
  | cons e rest ih =>
    obtain ⟨n, a⟩ := e
    simp only [List.cons_append, lookupSymbol, ih]
    split <;> rfl

theorem bindLabel_bound {line : Nat} {text : Text} {st : AsmState} {name : Text} {a : Addr}
    (h : lookupSymbol st.symbols name = some a) :
    bindLabel line text st (some name) = .error (.duplicateLabel line text name) := by
  simp only [bindLabel, h]

theorem bindLabel_new {line : Nat} {text : Text} {st : AsmState} {name : Text} (h : lookupSymbol st.symbols name = none)
    (hroom : st.emitted.length < 256) :
    bindLabel line text st (some name) =
      .ok { st with symbols := st.symbols ++ [(name, BitVec.ofNat 8 st.emitted.length)] } := by
  simp only [bindLabel, h]
  exact if_pos hroom

theorem bindLabel_tooLate {line : Nat} {text : Text} {st : AsmState} {name : Text}
    (h : lookupSymbol st.symbols name = none) (hfull : 256 ≤ st.emitted.length) :
    bindLabel line text st (some name) = .error (.rangeError line text) := by
  simp only [bindLabel, h]
  exact if_neg (Nat.not_lt.mpr hfull)

/-- Settles O50: a line's label is bound, new, or too late, and the table's end is searched last
(`lookupSymbol_concat`). -/
theorem labelsBindOnce : Obligations.LabelsBindOnce := by
  refine ⟨⟨rfl, rfl, rfl⟩, fun line text st name body hparse => ?_⟩
  rw [assembleLine_of_parse hparse]
  refine ⟨fun a hbound => ?_, fun hnew hroom => ?_, fun hnew hfull => ?_⟩
  · rw [bindLabel_bound hbound]
    rfl
  · rw [bindLabel_new hnew hroom]
    refine ⟨_, rfl, rfl, rfl, ?_, fun other hother => ?_⟩
    · rw [lookupSymbol_concat, hnew]
      exact if_pos rfl
    · have hlast : lookupSymbol [(name, BitVec.ofNat 8 st.emitted.length)] other = none := if_neg hother.symm
      rw [lookupSymbol_concat, hlast, Option.or_none]
  · rw [bindLabel_tooLate hnew hfull]
    rfl

theorem bindLabel_emission {line : Nat} {text : Text} {st st' : AsmState} {label : Option Text}
    (h : bindLabel line text st label = .ok st') : st'.emitted = st.emitted ∧ st'.sourceMap = st.sourceMap := by
  obtain ⟨-, rfl⟩ | ⟨name, -, -, -, rfl⟩ := bindLabel_ok h <;> exact ⟨rfl, rfl⟩

/-- A line emits nothing and maps nothing, or emits within the image and maps its first byte's address (R103, R104). -/
theorem assembleLine_emission {line : Nat} {text : Text} {st st' : AsmState} (h : assembleLine line text st = .ok st') :
    (st'.emitted = st.emitted ∧ st'.sourceMap = st.sourceMap) ∨
      (st.emitted.length < st'.emitted.length ∧ st'.emitted.length ≤ 256 ∧
        st'.sourceMap = st.sourceMap ++ [(BitVec.ofNat 8 st.emitted.length, ⟨line, text⟩)]) := by
  obtain ⟨p, bound, -, hlabel, hbody⟩ := assembleLine_ok h
  obtain ⟨hemitted, hmap⟩ := bindLabel_emission hlabel
  obtain ⟨-, rfl⟩ | ⟨name, ops, vs, -, hemit, hvs⟩ := assembleBody_ok hbody
  · exact .inl ⟨hemitted, hmap⟩
  · obtain ⟨hfits, hemitted', -, hmap'⟩ := emitValues_ok hemit
    have hpos : 0 < vs.length := by
      obtain ⟨-, hvs⟩ | ⟨-, hvs⟩ := hvs
      · rw [assembleSubleq_length hvs]; decide
      · rw [assembleData_length hvs]; decide
    rw [hemitted', hmap', hemitted, hmap, List.length_append]
    rw [hemitted] at hfits
    exact .inr ⟨by omega, hfits, rfl⟩

/-! ### A list of lines -/

theorem passOne_emitted_length {line : Nat} {lines : List Text} {st st' : AsmState}
    (h : passOne line lines st = .ok st') (hst : st.emitted.length ≤ 256) : st'.emitted.length ≤ 256 := by
  induction lines generalizing line st with
  | nil => cases h; exact hst
  | cons text rest ih =>
    obtain ⟨mid, hline, hrest⟩ := passOne_cons_ok h
    obtain ⟨hsame, -⟩ | ⟨-, hlen, -⟩ := assembleLine_emission hline
    · exact ih hrest (by rwa [hsame])
    · exact ih hrest hlen

/-- An entry of pass one's source map was there before, or names the line at its number (R103). -/
theorem passOne_sourceMap {line : Nat} {lines : List Text} {st st' : AsmState} (h : passOne line lines st = .ok st')
    {e : Addr × LineInfo} (he : e ∈ st'.sourceMap) :
    e ∈ st.sourceMap ∨ ∃ i, lines[i]? = some e.2.sourceText ∧ e.2.lineNumber = line + i := by
  induction lines generalizing line st with
  | nil => cases h; exact .inl he
  | cons text rest ih =>
    obtain ⟨mid, hline, hrest⟩ := passOne_cons_ok h
    obtain hmid | ⟨i, htext, hnumber⟩ := ih hrest
    · obtain ⟨-, hmap⟩ | ⟨-, -, hmap⟩ := assembleLine_emission hline
      · exact .inl (hmap ▸ hmid)
      · rw [hmap, List.mem_append, List.mem_singleton] at hmid
        obtain hmid | rfl := hmid
        · exact .inl hmid
        · exact .inr ⟨0, rfl, rfl⟩
    · exact .inr ⟨i + 1, by rwa [List.getElem?_cons_succ], by omega⟩

/-- In a list that assembles every line does. -/
theorem assembleLine_of_passOne {line : Nat} {lines : List Text} {st st' : AsmState}
    (h : passOne line lines st = .ok st') {text : Text} (hmem : text ∈ lines) :
    ∃ n before after, assembleLine n text before = .ok after := by
  induction lines generalizing line st with
  | nil => cases hmem
  | cons head rest ih =>
    obtain ⟨mid, hline, hrest⟩ := passOne_cons_ok h
    obtain rfl | hmem := List.mem_cons.mp hmem
    · exact ⟨_, _, _, hline⟩
    · exact ih hrest hmem

theorem passOne_append_error {line : Nat} {lines : List Text} {st : AsmState} {err : AsmError}
    (h : passOne line lines st = .error err) (more : List Text) : passOne line (lines ++ more) st = .error err := by
  induction lines generalizing line st with
  | nil => cases h
  | cons text rest ih =>
    simp only [List.cons_append, passOne] at h ⊢
    split at h
    · exact h
    · exact ih h

/-! ### The assembler's answer -/

theorem assemble_of_passOne_error {base : Fin 2} {lines : List Text} {err : AsmError}
    (h : passOne base.val lines asmStart = .error err) : assemble base lines = .error err := by
  simp only [assemble, h]

/-- A program is made by both passes succeeding (R90). -/
theorem assemble_ok {base : Fin 2} {lines : List Text} {p : Program} (h : assemble base lines = .ok p) :
    ∃ st bytes, passOne base.val lines asmStart = .ok st ∧ passTwo st.symbols st.emitted = .ok bytes ∧
      p = st.program bytes := by
  unfold assemble at h
  split at h
  · cases h
  · next st hone =>
    split at h
    · cases h
    · next bytes htwo => cases h; exact ⟨st, bytes, hone, htwo, rfl⟩

/-- Settles O49: by what one line maps (`assembleLine_emission`), and what pass one's map holds (`passOne_sourceMap`). -/
theorem sourceMapRecordsEmittingLines : Obligations.SourceMapRecordsEmittingLines := by
  refine ⟨fun line text st st' h => ?_, fun base lines p h e he => ?_⟩
  · obtain ⟨hemitted, hmap⟩ | ⟨hlt, hlen, hmap⟩ := assembleLine_emission h
    · rw [hemitted]
      exact ⟨fun hlt => absurd hlt (Nat.lt_irrefl _), fun _ => hmap, Nat.le_refl _⟩
    · exact ⟨fun _ => ⟨by omega, hmap⟩, fun heq => absurd heq (by omega), Nat.le_of_lt hlt⟩
  · obtain ⟨st, bytes, hone, -, rfl⟩ := assemble_ok h
    obtain hstart | hline := passOne_sourceMap hone he
    · cases hstart
    · exact hline

/-- Settles O55: pass one stops at the failing line (`passOne_append_error`), and its error is the answer. -/
theorem firstAssemblyErrorWins : Obligations.FirstAssemblyErrorWins := fun _ _ after _ h =>
  assemble_of_passOne_error (passOne_append_error h after)

theorem length_bytes_of_assemble {base : Fin 2} {lines : List Text} {p : Program} (h : assemble base lines = .ok p) :
    p.bytes.length ≤ 256 := by
  obtain ⟨st, bytes, hone, htwo, rfl⟩ := assemble_ok h
  rw [AsmState.program, List.length_map, passTwo_length htwo]
  exact passOne_emitted_length hone (Nat.zero_le _)

theorem imageAdmitted_of_assemble {base : Fin 2} {lines : List Text} {p : Program} (h : assemble base lines = .ok p) :
    imageAdmitted p.bytes = true := by
  refine (imageAdmitted_iff _).mpr ⟨length_bytes_of_assemble h, ?_⟩
  obtain ⟨st, bytes, -, -, rfl⟩ := assemble_ok h
  exact List.forall_mem_map.mpr fun b _ => ⟨Int.natCast_nonneg _, Int.le_of_lt_add_one (by exact_mod_cast b.isLt)⟩

/-- Settles O56: the image is admitted, and construction loads it (`read_constructed`). -/
theorem assembledProgramsConstruct : Obligations.AssembledProgramsConstruct := by
  refine fun base lines p h => ⟨length_bytes_of_assemble h, fun cb replies => ?_⟩
  have hadmitted := imageAdmitted_of_assemble h
  exact ⟨_, construct_of_admitted hadmitted cb replies, fun A _ => read_constructed hadmitted cb replies A⟩

end Sys2Proof.Machine
end

section
/-! PROOFS. The line grammar (30_encoding.md R91-R93, D13, D14): blank and comment lines, what may follow an operand, and
the argument-count examples. -/

namespace Sys2Proof.Machine
open Sys2Proof.Stated

/-! ### Blank and comment lines (R91) -/

theorem skipBlanks_of_blank {blanks : Text} (h : blanks.all isBlankChar = true) : skipBlanks blanks = [] := by
  rw [← List.append_nil blanks, skipBlanks_append [] h]
  rfl

theorem skipBlanks_of_head_not_blank {t : Text} (h : (t.head?.all fun c => !isBlankChar c) = true) :
    skipBlanks t = t := by
  cases t with
  | nil => rfl
  | cons c cs =>
    have hc : isBlankChar c = false := by simpa using h
    simp [skipBlanks, spanText, hc]

theorem parseLine_blanks_append {blanks : Text} (h : blanks.all isBlankChar = true) (t : Text) :
    parseLine (blanks ++ t) = parseLine t := by
  rw [parseLine, parseLine, skipBlanks_append t h]

theorem parseLine_of_blank {blanks : Text} (h : blanks.all isBlankChar = true) :
    parseLine blanks = some ⟨none, none⟩ := by
  rw [← List.append_nil blanks, parseLine_blanks_append h]
  rfl

theorem parseLine_of_comment {blanks : Text} (h : blanks.all isBlankChar = true) (comment : Text) :
    parseLine (blanks ++ ';' :: comment) = some ⟨none, none⟩ := by
  rw [parseLine_blanks_append h]
  rfl

theorem assembleLine_of_empty {text : Text} (h : parseLine text = some ⟨none, none⟩) (line : Nat) (st : AsmState) :
    assembleLine line text st = .ok st := by
  rw [assembleLine_of_parse h]
  rfl

/-- Settles O52: leading whitespace is skipped (`parseLine_blanks_append`), and an empty line binds and emits nothing. -/
theorem blankAndCommentLinesEmitNothing : Obligations.BlankAndCommentLinesEmitNothing := by
  intro blanks rest h
  have hblank := parseLine_of_blank h
  have hcomment := parseLine_of_comment h rest
  exact ⟨hblank, hcomment, fun line st => ⟨assembleLine_of_empty hblank line st, assembleLine_of_empty hcomment line st⟩⟩

/-! ### The first character of an operand (R91) -/

theorem isBlankChar_iff (c : Char) : isBlankChar c = true ↔ c = ' ' ∨ c = '\t' := by
  simp only [isBlankChar, Bool.or_eq_true, beq_iff_eq]

theorem parseExpr_blank {c : Char} (h : isBlankChar c = true) (cs : Text) : parseExpr (c :: cs) = none := by
  obtain rfl | rfl := (isBlankChar_iff c).mp h <;> rfl

theorem parseExpr_semicolon (cs : Text) : parseExpr (';' :: cs) = none := rfl

/-- An operand does not begin with whitespace. -/
theorem skipBlanks_of_parseExpr {t rest : Text} {e : SourceOperand} (h : parseExpr t = some (e, rest)) :
    skipBlanks t = t := by
  apply skipBlanks_of_head_not_blank
  cases t with
  | nil => rfl
  | cons c cs =>
    cases hc : isBlankChar c with
    | false => simp [hc]
    | true => cases (parseExpr_blank hc cs).symm.trans h

/-! ### The text after an operand (R93) -/

theorem requireBlanks_eq_none {t : Text}
    (h : ∀ blanks rest : Text, blanks ≠ [] → blanks.all isBlankChar = true → t ≠ blanks ++ rest) :
    requireBlanks t = none := by
  cases t with
  | nil => rfl
  | cons c cs =>
    have hc : ¬isBlankChar c = true := fun hc => h [c] cs (List.cons_ne_nil _ _) (by simp [hc]) rfl
    rw [requireBlanks, if_neg hc]

/-- After a comma and whitespace another operand is read, and then what follows it. -/
theorem operandsAfter_comma {blanks : Text} (t : Text) (hne : blanks ≠ []) (h : blanks.all isBlankChar = true) :
    operandsAfter (',' :: blanks ++ t) =
      (parseExpr (skipBlanks t)).bind fun r => (operandsAfter r.2).map (r.1 :: ·) := by
  rw [operandsAfter, List.cons_append, parseMoreOperands, requireBlanks_append t hne h]
  cases he : parseExpr (skipBlanks t) with
  | none => simp [he]
  | some r =>
    have hshorter := parseExpr_shorter (e := r.1) (rest := r.2) he
    have hskip := spanText_rest_length isBlankChar t
    have hfuel : parseMoreOperands (',' :: (blanks ++ t)).length r.2 = operandsAfter r.2 := by
      refine parseMoreOperands_fuel _ _ _ ?_ (Nat.lt_succ_self _)
      simp only [skipBlanks] at hshorter
      simp only [List.length_cons, List.length_append]
      omega
    simp only [he, hfuel, Option.bind_some]

theorem operandsAfter_comma_not_blank {t : Text} (h : requireBlanks t = none) : operandsAfter (',' :: t) = none := by
  simp only [operandsAfter, parseMoreOperands, h]

/-- Without a comma the operands end, with the line or with a comment. -/
theorem operandsAfter_of_not_comma {t : Text} (h : ∀ u, t ≠ ',' :: u) :
    operandsAfter t = if endsLine (skipBlanks t) then some [] else none := by
  rw [operandsAfter, parseMoreOperands]
  exact h

theorem endsLine_iff (t : Text) : endsLine t = true ↔ t = [] ∨ ∃ comment, t = ';' :: comment := by
  cases t <;> simp [endsLine]

theorem parseOperands_blanks {blanks t rest : Text} {e : SourceOperand} (hne : blanks ≠ [])
    (h : blanks.all isBlankChar = true) (he : parseExpr t = some (e, rest)) :
    parseOperands (blanks ++ t) = (operandsAfter rest).map (e :: ·) := by
  have hnotEnd : endsLine (blanks ++ t) = false := by
    obtain ⟨c, cs, rfl⟩ := List.exists_cons_of_ne_nil hne
    rw [List.all_cons, Bool.and_eq_true] at h
    obtain rfl | rfl := (isBlankChar_iff c).mp h.1 <;> rfl
  rw [parseOperands, hnotEnd, if_neg Bool.false_ne_true, requireBlanks_append t hne h, skipBlanks_of_parseExpr he]
  split
  · next heq => cases heq
  · next u heq =>
    cases heq
    split
    · cases (parseExpr_semicolon _).symm.trans he
    · rw [he]
      rfl

/-- A run of whitespace, with or without a comment after it, does not begin with a comma. -/
theorem blanks_ne_comma {blanks : Text} (h : blanks.all isBlankChar = true) (u : Text) : blanks ≠ ',' :: u := by
  rintro rfl
  cases h

theorem comment_ne_comma {blanks : Text} (h : blanks.all isBlankChar = true) (comment u : Text) :
    blanks ++ ';' :: comment ≠ ',' :: u := by
  cases blanks with
  | nil => exact fun heq => absurd (List.cons.inj heq).1 (by decide)
  | cons c cs =>
    intro heq
    obtain rfl : c = ',' := (List.cons.inj heq).1
    cases h

theorem operandsAfter_blanks {blanks : Text} (h : blanks.all isBlankChar = true) : operandsAfter blanks = some [] := by
  rw [operandsAfter_of_not_comma (blanks_ne_comma h), skipBlanks_of_blank h]
  rfl

theorem operandsAfter_comment {blanks : Text} (h : blanks.all isBlankChar = true) (comment : Text) :
    operandsAfter (blanks ++ ';' :: comment) = some [] := by
  rw [operandsAfter_of_not_comma (comment_ne_comma h comment), skipBlanks_append _ h]
  rfl

/-- Nothing but a comma with whitespace, the line's end or a comment follows an operand. -/
theorem operandsAfter_eq_none {t : Text}
    (hcomma : ∀ blanks rest : Text, blanks ≠ [] → blanks.all isBlankChar = true → t ≠ ',' :: blanks ++ rest)
    (hend : ∀ blanks comment : Text, blanks.all isBlankChar = true → t ≠ blanks ∧ t ≠ blanks ++ ';' :: comment) :
    operandsAfter t = none := by
  by_cases hc : ∃ u, t = ',' :: u
  · obtain ⟨u, rfl⟩ := hc
    exact operandsAfter_comma_not_blank (requireBlanks_eq_none fun blanks rest hne hb hu =>
      hcomma blanks rest hne hb (congrArg (',' :: ·) hu))
  · obtain ⟨blanks, hb, ht⟩ := eq_blanks_append_skipBlanks t
    have hnotEnd : ¬endsLine (skipBlanks t) = true := by
      rw [endsLine_iff]
      rintro (hnil | ⟨comment, hcomment⟩)
      · exact (hend blanks [] hb).1 (by rw [ht, hnil, List.append_nil])
      · exact (hend blanks comment hb).2 (by rw [ht, hcomment])
    rw [operandsAfter_of_not_comma (fun u hu => hc ⟨u, hu⟩), if_neg hnotEnd]

/-- Settles O54: the text after an operand begins with a comma (`operandsAfter_comma`) or not
(`operandsAfter_of_not_comma`). -/
theorem commaSeparationIsMandatory : Obligations.CommaSeparationIsMandatory := by
  refine ⟨fun _ _ _ _ hne hb he => parseOperands_blanks hne hb he, fun blanks t rest e hne hb he => ?_,
    fun blanks comment hb => ⟨operandsAfter_blanks hb, operandsAfter_comment hb comment⟩, fun _ => operandsAfter_eq_none,
    fun blanks t hne hb hhead he => ?_, rfl, rfl, rfl, rfl, rfl, rfl⟩
  · rw [operandsAfter_comma t hne hb, skipBlanks_of_parseExpr he, he]
    rfl
  · rw [operandsAfter_comma t hne hb, skipBlanks_of_head_not_blank hhead, he]
    rfl

/-! ### The argument-count examples (C3) -/

theorem assembleLine_subleq_argumentCount {text : Text} {ops : List SourceOperand}
    (hparse : parseLine text = some ⟨none, some (nameSubleq, ops)⟩) (h : ¬(ops.length = 2 ∨ ops.length = 3)) (line : Nat)
    (st : AsmState) : assembleLine line text st = .error (.argumentCount line text [2, 3] ops.length) := by
  rw [assembleLine_of_parse hparse]
  exact assembleBody_subleq_argumentCount line text st h

theorem assembleLine_data_argumentCount {text : Text} {ops : List SourceOperand}
    (hparse : parseLine text = some ⟨none, some (nameData, ops)⟩) (h : ops.length ≠ 1) (line : Nat) (st : AsmState) :
    assembleLine line text st = .error (.argumentCount line text [1] ops.length) := by
  rw [assembleLine_of_parse hparse]
  exact assembleBody_data_argumentCount line text st h

theorem assembleLine_syntaxError {text : Text} (hparse : parseLine text = none) (line : Nat) (st : AsmState) :
    assembleLine line text st = .error (.syntaxError line text) := by
  simp only [assembleLine, hparse]

/-- A source with a line that no state assembles makes no program (R105). -/
theorem assemble_ne_ok {text : Text} (h : ∀ line st, ∃ err, assembleLine line text st = .error err) (base : Fin 2)
    (before after : List Text) (p : Program) : assemble base (before ++ text :: after) ≠ .ok p := by
  intro hok
  obtain ⟨st, bytes, hone, -, -⟩ := assemble_ok hok
  have hmem : text ∈ before ++ text :: after := by simp
  obtain ⟨n, mid, mid', hline⟩ := assembleLine_of_passOne hone hmem
  obtain ⟨err, herr⟩ := h n mid
  cases hline.symm.trans herr

/-- Settles O53: each example parses as it reads, and its line fails in every state. -/
theorem argumentCountExamplesFail : Obligations.ArgumentCountExamplesFail := by
  have h1 := assembleLine_subleq_argumentCount (text := "subleq 1".toList) (ops := [.literal 1]) rfl (by decide)
  have h4 := assembleLine_subleq_argumentCount (text := "subleq 1, 2, 3, 4".toList)
    (ops := [.literal 1, .literal 2, .literal 3, .literal 4]) rfl (by decide)
  have hsyntax := assembleLine_syntaxError (text := "subleq 1,2,3,4".toList) rfl
  have hdata0 := assembleLine_data_argumentCount (text := ".data".toList) (ops := []) rfl (by decide)
  have hdata2 := assembleLine_data_argumentCount (text := ".data 1, 2".toList) (ops := [.literal 1, .literal 2]) rfl
    (by decide)
  refine fun line st base => ⟨h1 line st, h4 line st, hsyntax line st, hdata0 line st, hdata2 line st, ?_⟩
  simp only [List.forall_mem_cons, List.not_mem_nil, false_imp_iff, implies_true, and_true]
  exact ⟨assemble_ne_ok (fun n s => ⟨_, h1 n s⟩) base, assemble_ne_ok (fun n s => ⟨_, h4 n s⟩) base,
    assemble_ne_ok (fun n s => ⟨_, hsyntax n s⟩) base, assemble_ne_ok (fun n s => ⟨_, hdata0 n s⟩) base,
    assemble_ne_ok (fun n s => ⟨_, hdata2 n s⟩) base⟩

end Sys2Proof.Machine
end
